-- ==== Sys2Proof/Word.lean ====
section
/-! DEFINITION. The word types of the core (00_scope.md R5, R12): every value is an unsigned
bit vector of its stated width; the hardware has no signed quantity. -/

namespace Sys2Proof

/-- `XLEN` = 8: a general register, a timer, a memory byte (R5). -/
abbrev Byte := BitVec 8

/-- `ALEN` = `ILEN` = 16: `I`, `PC`, a stack entry, an instruction word (R5). -/
abbrev Word := BitVec 16

/-- A 4-bit instruction field: a register number, a row count, a key number (R76). -/
abbrev Nibble := BitVec 4

/-- The 12-bit address field `NNN` (R76). -/
abbrev Addr12 := BitVec 12

/-- A register or key number is below 16, so no register access can fail (10_state.md R20). -/
theorem Nibble.lt_sixteen (x : Nibble) : x.toNat < 16 := x.isLt

end Sys2Proof
end

