-- ==== Sys2Proof/Config.lean ====
section
/-! DEFINITION. The fixed parameters of the hardware (00_scope.md R5, R6) and the one free value, the
random byte (10_state.md R34).  `FONT_BASE` and `FONT` (R7, R66) stand in Machine/Ops.lean beside the
memory operations that read them. -/

namespace Sys2Proof.Config

/-- `MEM_SIZE`: bytes of memory, addresses 0 to 4095 (R5). -/
abbrev memSize : Nat := 4096

/-- `ENTRY`: the ROM load address and the reset value of `PC` (R5, R213). -/
abbrev entry : Nat := 0x200

/-- `ROM_MAX`: the largest ROM in bytes, `MEM_SIZE - ENTRY` (R5, R65). -/
abbrev romMax : Nat := 3584

/-- `STACK_DEPTH` (R6). -/
abbrev stackDepth : Nat := 16

/-- `DISP_W`: display columns (R5). -/
abbrev dispW : Nat := 64

/-- `DISP_H`: display rows (R5). -/
abbrev dispH : Nat := 32

/-- `Draw8()`: the `n`-th byte of the random source since construction.  It has no body: nothing is
known of any drawn byte and nothing relates two draws (R34, R150, decision D18).  Log entry 3. -/
opaque drawByte : Nat → Byte

end Sys2Proof.Config
end

