-- ==== Sys2Proof/Syntax.lean ====
section
/-! DEFINITION. The instruction set: one constructor per row of spec/opcode_table.json, in the table's
order (30_encoding.md R80).  Operands have the width of their field (R76, R78). -/

namespace Sys2Proof

/-- The 35 instructions of R80. -/
inductive Instr where
  /-- `00E0` CLS -/
  | cls
  /-- `00EE` RET -/
  | ret
  /-- `0NNN` SYS nnn, for every `NNN` but 0x0E0 and 0x0EE -/
  | sys (nnn : Addr12)
  /-- `1NNN` JP nnn -/
  | jp (nnn : Addr12)
  /-- `2NNN` CALL nnn -/
  | call (nnn : Addr12)
  /-- `3XKK` SE Vx, kk -/
  | seImm (x : Nibble) (kk : Byte)
  /-- `4XKK` SNE Vx, kk -/
  | sneImm (x : Nibble) (kk : Byte)
  /-- `5XY0` SE Vx, Vy -/
  | seReg (x y : Nibble)
  /-- `6XKK` LD Vx, kk -/
  | ldImm (x : Nibble) (kk : Byte)
  /-- `7XKK` ADD Vx, kk -/
  | addImm (x : Nibble) (kk : Byte)
  /-- `8XY0` LD Vx, Vy -/
  | ldReg (x y : Nibble)
  /-- `8XY1` OR Vx, Vy -/
  | orReg (x y : Nibble)
  /-- `8XY2` AND Vx, Vy -/
  | andReg (x y : Nibble)
  /-- `8XY3` XOR Vx, Vy -/
  | xorReg (x y : Nibble)
  /-- `8XY4` ADD Vx, Vy -/
  | addReg (x y : Nibble)
  /-- `8XY5` SUB Vx, Vy -/
  | subReg (x y : Nibble)
  /-- `8XY6` SHR Vx, Vy -/
  | shrReg (x y : Nibble)
  /-- `8XY7` SUBN Vx, Vy -/
  | subnReg (x y : Nibble)
  /-- `8XYE` SHL Vx, Vy -/
  | shlReg (x y : Nibble)
  /-- `9XY0` SNE Vx, Vy -/
  | sneReg (x y : Nibble)
  /-- `ANNN` LD I, nnn -/
  | ldI (nnn : Addr12)
  /-- `BNNN` JP V0, nnn -/
  | jpV0 (nnn : Addr12)
  /-- `CXKK` RND Vx, kk -/
  | rnd (x : Nibble) (kk : Byte)
  /-- `DXYN` DRW Vx, Vy, n -/
  | drw (x y n : Nibble)
  /-- `EX9E` SKP Vx -/
  | skp (x : Nibble)
  /-- `EXA1` SKNP Vx -/
  | sknp (x : Nibble)
  /-- `FX07` LD Vx, DT -/
  | ldFromDt (x : Nibble)
  /-- `FX0A` LD Vx, K -/
  | ldKey (x : Nibble)
  /-- `FX15` LD DT, Vx -/
  | ldDt (x : Nibble)
  /-- `FX18` LD ST, Vx -/
  | ldSt (x : Nibble)
  /-- `FX1E` ADD I, Vx -/
  | addI (x : Nibble)
  /-- `FX29` LD F, Vx -/
  | ldFont (x : Nibble)
  /-- `FX33` LD B, Vx -/
  | ldBcd (x : Nibble)
  /-- `FX55` LD [I], Vx -/
  | storeRegs (x : Nibble)
  /-- `FX65` LD Vx, [I] -/
  | loadRegs (x : Nibble)
  deriving DecidableEq, Repr

end Sys2Proof
end

