-- ==== Sys2Proof/Machine/State.lean ====
section
/-! DEFINITION. The state of the core (10_state.md, the tuple at its head), the faults it reports
(60_exceptions.md R180) and its value after `RESET` (R37).  Field names are the spec's. -/

namespace Sys2Proof.Machine

/-- `Q`: the three quirk switches (R33). -/
structure Quirks where
  /-- OR, AND, XOR force VF to 0 after the operation -/
  logicResetVf : Bool
  /-- SHR, SHL shift `V[Y]` into `V[X]` -/
  shiftUsesVy : Bool
  /-- LD [I],Vx and LD Vx,[I] end with `I <- I + X + 1` -/
  blockIncrI : Bool
  deriving DecidableEq, Repr

/-- `MEM` (R27, R50): the bytes that differ from their value after `RESET`, at strictly rising
addresses.  Machine/Ops.lean says what an unlisted address reads as (log entry 6). -/
abbrev Memory := List Host.Cell

/-- `V[0..15]` (R20). -/
abbrev Regs := Vector Byte 16

/-- `DISP[y][x]`: 32 rows of 64 one-bit cells, `true` = lit (R28). -/
abbrev Display := Vector (Vector Bool 64) 32

/-- The error kinds of R180, a closed set.  Each ends the operation with no effect at all (R187). -/
inductive Fault where
  /-- The fetched word is illegal or is SYS (R181, R135).  Raised by the fetch and by SYS.  The spec's
  own report: neither safe nor unsafe. -/
  | unknownOpcode (op : Word)
  /-- A fetch, a control-transfer target or a data access outside 0 to 4095 (R182).  Raised by the
  fetch, JP, JP V0, CALL, RET, DRW, LD B, LD [I],Vx and LD Vx,[I].  The spec's own report; where an
  implementation checks less than R182 the difference is safe. -/
  | memoryOutOfBounds (addr : Nat)
  /-- CALL with sixteen return addresses held (R183).  The spec's own report. -/
  | stackOverflow
  /-- RET with none held (R184).  The spec's own report. -/
  | stackUnderflow
  /-- JP, JP V0 or CALL to an odd in-bounds target (R185, decision D8).  Safe: an implementation
  without the check goes on where this stops. -/
  | misalignedPC (t : Nat)
  /-- `LOAD_ROM` of an unreadable ROM or of more than 3584 bytes (R186).  Never raised by a step.  The
  spec's own report. -/
  | romLoadError
  deriving DecidableEq, Repr

/-- Why the model gives no outcome.  No step of this model ends so. -/
inductive Refusal where
  /-- Raised only by an arm of `exec` whose instruction has no meaning yet; there is none.  Safe. -/
  | notModelled (mnemonic : String)
  deriving DecidableEq, Repr

/-- The complete state (10_state.md).  The last two fields are the model's own: the open parameter
`Q_JUMP_VX` and the number of random bytes drawn. -/
structure State where
  /-- `V[0..15]` (R20) -/
  v : Regs
  /-- `I` (R23) -/
  i : Word
  /-- `PC` (R24) -/
  pc : Word
  /-- `SP`, the number of return addresses held, 0 to 16 (R26) -/
  sp : Fin 17
  /-- `STACK[0..15]` (R26) -/
  stack : Vector Word 16
  /-- `MEM[0..4095]` (R27) -/
  mem : Memory
  /-- `DISP[0..31][0..63]` (R28) -/
  disp : Display
  /-- `DT` (R30) -/
  dt : Byte
  /-- `ST` (R31) -/
  st : Byte
  /-- `KEY[0..15]`, `true` = pressed (R29) -/
  key : Vector Bool 16
  /-- `AWAIT` = 1, the execution state AwaitingKey (R32) -/
  await : Bool
  /-- `CAPT` (R32) -/
  capt : Option Nibble
  /-- `Q` (R33) -/
  q : Quirks
  /-- `ROM_LOADED` (R35) -/
  romLoaded : Bool
  /-- `Q_JUMP_VX`, the open parameter of R8; no operation writes it (log entry 2) -/
  qJumpVx : Bool
  /-- how many bytes `Draw8()` has given since construction; stands in place of `RNG` (R34, log entry 3) -/
  rngDraws : Nat
  deriving DecidableEq, Repr

/-- The state just after the first `RESET`, for the initial quirks and the `Q_JUMP_VX` that the spec
leaves to the model's user (R37, 92_eei_decisions.md, its last table). -/
def State.initial (q : Quirks) (qJumpVx : Bool) : State where
  v := Vector.replicate 16 0#8
  i := 0#16
  pc := 0x200#16
  sp := 0
  stack := Vector.replicate 16 0#16
  mem := []
  disp := Vector.replicate 32 (Vector.replicate 64 false)
  dt := 0#8
  st := 0#8
  key := Vector.replicate 16 false
  await := false
  capt := none
  q := q
  romLoaded := false
  qJumpVx := qJumpVx
  rngDraws := 0

/-- The machine right after reset (R37).  The spec gives no value for the two open arguments; here all
four switches are off (DESIGN CHOICE, log entries 1 and 2). -/
def State.reset : State :=
  State.initial { logicResetVf := false, shiftUsesVy := false, blockIncrI := false } false

end Sys2Proof.Machine
end

