-- ==== Sys2Proof/Machine/Ops.lean ====
section
/-! DEFINITION. The operations every meaning is built from: memory (20_memory.md), registers and
program counter, the return-address stack (10_state.md R26), the checked control transfer (42_flow.md
R130), the display (44_random_display.md R151), and raising a fault (60_exceptions.md R187). -/

namespace Sys2Proof.Machine

/-! ### The font table and what an unlisted address reads as -/

/-- `FONT_BASE` (R7, decision D5, log entry 5). -/
def fontBase : Nat := 0x000

/-- `FONT[0..79]`, sixteen glyphs of five bytes (R66, log entry 5). -/
def font : List Byte :=
  [0xF0, 0x90, 0x90, 0x90, 0xF0] ++ [0x20, 0x60, 0x20, 0x20, 0x70] ++
  [0xF0, 0x10, 0xF0, 0x80, 0xF0] ++ [0xF0, 0x10, 0xF0, 0x10, 0xF0] ++
  [0x90, 0x90, 0xF0, 0x10, 0x10] ++ [0xF0, 0x80, 0xF0, 0x10, 0xF0] ++
  [0xF0, 0x80, 0xF0, 0x90, 0xF0] ++ [0xF0, 0x10, 0x20, 0x40, 0x40] ++
  [0xF0, 0x90, 0xF0, 0x90, 0xF0] ++ [0xF0, 0x90, 0xF0, 0x10, 0xF0] ++
  [0xF0, 0x90, 0xF0, 0x90, 0x90] ++ [0xE0, 0x90, 0xE0, 0x90, 0xE0] ++
  [0xF0, 0x80, 0x80, 0x80, 0xF0] ++ [0xE0, 0x90, 0x90, 0x90, 0xE0] ++
  [0xF0, 0x80, 0xF0, 0x80, 0xF0] ++ [0xF0, 0x80, 0xF0, 0x80, 0x80]

/-- The byte `RESET` leaves at an address: the font, and zero everywhere else (R51, R210).  This is what
an address that memory does not list reads as. -/
def resetByte (a : Nat) : Byte := if fontBase ≤ a then font.getD (a - fontBase) 0#8 else 0#8

/-! ### Memory (R50 to R57) -/

/-- `MEM[a]`. -/
def Memory.read : Memory → Nat → Byte
  | [], a => resetByte a
  | (b, v) :: m, a => if b = a then v else Memory.read m a

/-- `MEM[a] <- v`, keeping the canonical form: a byte equal to its reset value is not listed. -/
def Memory.write : Memory → Nat → Byte → Memory
  | [], a, v => if v = resetByte a then [] else [(a, v)]
  | (b, w) :: m, a, v =>
    if a < b then if v = resetByte a then (b, w) :: m else (a, v) :: (b, w) :: m
    else if a = b then if v = resetByte a then m else (a, v) :: m
    else (b, w) :: Memory.write m a v

/-- The canonical form of memory whose addresses all lie at or above `lo`: strictly rising, below
`MEM_SIZE`, no byte equal to its reset value. -/
def Memory.wfFrom : Nat → Memory → Bool
  | _, [] => true
  | lo, (a, v) :: m =>
    decide (lo ≤ a) && decide (a < Config.memSize) && (v != resetByte a) && Memory.wfFrom (a + 1) m

/-- The canonical form (log entry 6). -/
def Memory.wf (m : Memory) : Bool := Memory.wfFrom 0 m

/-- The bytes at `a`, `a + 1`, …, `n` of them, in ascending order (R57). -/
def Memory.readBytes (m : Memory) (a : Nat) : Nat → List Byte
  | 0 => []
  | n + 1 => m.read a :: Memory.readBytes m (a + 1) n

/-- The bytes of a list stored at `a`, `a + 1`, … in ascending order (R57). -/
def Memory.writeBytes (m : Memory) (a : Nat) : List Byte → Memory
  | [] => m
  | b :: bs => Memory.writeBytes (m.write a b) (a + 1) bs

/-- `MemRead(addr, 2)`, used by the fetch alone: both bytes must exist, and the fault names `addr`
itself (R53).  The lower address holds bits[15:8] (R57). -/
def memRead2 (m : Memory) (addr : Nat) : Except Fault Word :=
  if addr + 1 < Config.memSize then .ok (m.read addr ++ m.read (addr + 1))
  else .error (.memoryOutOfBounds addr)

/-- The bounds requirement of a data access of `n` bytes at `addr`: every byte at or below 0xFFF, with no
wrap-around, or else the fault that names the lowest offending address (R53, R54, R55, R180).  No
requirement when no byte is accessed (decision D22). -/
def dataFault (addr n : Nat) : Option Fault :=
  if n = 0 ∨ addr + n ≤ Config.memSize then none
  else some (.memoryOutOfBounds (max addr Config.memSize))

/-- A data read of `n` bytes, all of them or none (R53, R62). -/
def memReadBlock (m : Memory) (addr n : Nat) : Except Fault (List Byte) :=
  match dataFault addr n with
  | none => .ok (m.readBytes addr n)
  | some f => .error f

/-- A data write of a list of bytes, all of them or none (R54, R62). -/
def memWriteBlock (m : Memory) (addr : Nat) (bs : List Byte) : Except Fault Memory :=
  match dataFault addr bs.length with
  | none => .ok (m.writeBytes addr bs)
  | some f => .error f

/-! ### Registers, index register, program counter -/

/-- `V[x]`. -/
def State.getV (s : State) (x : Nibble) : Byte := s.v[x.toNat]'x.lt_sixteen

/-- `V[x] <- b`. -/
def State.setV (s : State) (x : Nibble) (b : Byte) : State :=
  { s with v := s.v.set x.toNat b x.lt_sixteen }

/-- `VF <- 1` or `VF <- 0` (R22). -/
def State.setVF (s : State) (flag : Bool) : State := s.setV 0xF#4 (if flag then 1#8 else 0#8)

/-- Every general register at once. -/
def State.setRegs (s : State) (v : Regs) : State := { s with v := v }

/-- `I <- a`. -/
def State.setI (s : State) (a : Word) : State := { s with i := a }

/-- `PC <- t`, unchecked (R13). -/
def State.setPc (s : State) (t : Word) : State := { s with pc := t }

/-- `PC <- PC + 2`, the advance of every non-branching instruction (R24). -/
def State.advance (s : State) : State := s.setPc (s.pc + 2#16)

/-- The skip convention: `PC <- PC + 4` if the condition holds, else `PC <- PC + 2`; not checked (R120). -/
def State.skipIf (s : State) (c : Bool) : State := s.setPc (s.pc + if c then 4#16 else 2#16)

/-- `V[k] <- b₀, V[k+1] <- b₁, …` for the bytes of a list (R173). -/
def Regs.load (v : Regs) (k : Nat) : List Byte → Regs
  | [] => v
  | b :: bs => Regs.load (v.setIfInBounds k b) (k + 1) bs

/-! ### The other pieces of state -/

/-- `MEM <- m`. -/
def State.setMem (s : State) (m : Memory) : State := { s with mem := m }

/-- `DISP <- d`. -/
def State.setDisp (s : State) (d : Display) : State := { s with disp := d }

/-- `DT <- b`. -/
def State.setDt (s : State) (b : Byte) : State := { s with dt := b }

/-- `ST <- b`. -/
def State.setSt (s : State) (b : Byte) : State := { s with st := b }

/-- `AWAIT <- a` and `CAPT <- c`. -/
def State.setWait (s : State) (a : Bool) (c : Option Nibble) : State :=
  { s with await := a, capt := c }

/-- `KEY[k] <- b`. -/
def State.setKey (s : State) (k : Nibble) (b : Bool) : State :=
  { s with key := s.key.set k.toNat b k.lt_sixteen }

/-- `KEY[k]`. -/
def State.getKey (s : State) (k : Nibble) : Bool := s.key[k.toNat]'k.lt_sixteen

/-- `SP` and `STACK` at once. -/
def State.setStack (s : State) (sp : Fin 17) (stack : Vector Word 16) : State :=
  { s with sp := sp, stack := stack }

/-- The byte `Draw8()` gives next: a free value (R34). -/
def State.nextDraw (s : State) : Byte := Config.drawByte s.rngDraws

/-- One `Draw8()` is consumed. -/
def State.countDraw (s : State) : State := { s with rngDraws := s.rngDraws + 1 }

/-! ### Faults (R187, R188) -/

/-- Raising an error kind: the operation ends, its state is discarded and the state before it stays, so
nothing has changed (R187).  There is no trap entry: no vector, no saved register, no handler, and so
no return from one (R188, R190). -/
def raise (f : Fault) : Host.Outcome State Fault Refusal := .fault f

/-! ### Checked control transfer (R130) -/

/-- The first check of `SetPC(t)`: both bytes of the next opcode must exist. -/
def targetOutOfBounds (t : Nat) : Bool := Config.memSize ≤ t + 1

/-- `SetPC(t)` on the state `s`: bounds, then parity, then `PC <- t` (R130). -/
def setPC (t : Nat) (s : State) : Host.Outcome State Fault Refusal :=
  if targetOutOfBounds t then raise (.memoryOutOfBounds t)
  else if t % 2 = 1 then raise (.misalignedPC t)
  else .next (s.setPc (BitVec.ofNat 16 t))

/-! ### The return-address stack (R26) -/

/-- Push: the state with `STACK[SP] <- v; SP <- SP + 1`, or none when `SP` = 16. -/
def State.push (s : State) (v : Word) : Option State :=
  if h : s.sp.val < Config.stackDepth then
    some (s.setStack ⟨s.sp.val + 1, Nat.succ_lt_succ h⟩ (s.stack.set s.sp.val v h))
  else none

/-- Pop: the newest return address and the state with `SP <- SP - 1`, or none when `SP` = 0; the slot
keeps its bits (decision D19). -/
def State.pop (s : State) : Option (Word × State) :=
  if h : 0 < s.sp.val then
    have hd : s.sp.val - 1 < 16 := by omega
    some (s.stack[s.sp.val - 1], s.setStack ⟨s.sp.val - 1, by omega⟩ s.stack)
  else none

/-! ### The display (R28, R151) -/

/-- `DISP[y mod 32][x mod 64]`: the per-pixel location wraps, nothing is clipped (R151). -/
def Display.pixel (d : Display) (x y : Nat) : Bool :=
  (d[y % 32]'(Nat.mod_lt _ (by decide)))[x % 64]'(Nat.mod_lt _ (by decide))

/-- `DISP[py][px] <- DISP[py][px] ^ 1` at the wrapped location. -/
def Display.toggle (d : Display) (x y : Nat) : Display :=
  d.set (y % 32)
    ((d[y % 32]'(Nat.mod_lt _ (by decide))).set (x % 64) (!d.pixel x y) (Nat.mod_lt _ (by decide)))
    (Nat.mod_lt _ (by decide))

/-- A display with every cell 0. -/
def Display.blank : Display := Vector.replicate 32 (Vector.replicate 64 false)

/-- One sprite bit that is 1: note a collision if the pixel is lit, and toggle it (R151). -/
def plot (c : Display × Bool) (x y : Nat) : Display × Bool :=
  (c.1.toggle x y, c.2 || c.1.pixel x y)

/-- One sprite row at row `y`: bit `7 - col` is column offset `col`; a 0 bit leaves its pixel alone
(R151, decision D26). -/
def drawRow (x0 y : Nat) (b : Byte) (c : Display × Bool) : Display × Bool :=
  (List.range 8).foldl (fun c col => if b.getLsbD (7 - col) then plot c (x0 + col) y else c) c

/-- The rows of a sprite, the first at row `y`, and whether any pixel was turned off (R151). -/
def drawSprite (x0 y : Nat) : List Byte → Display × Bool → Display × Bool
  | [], c => c
  | b :: bs, c => drawSprite x0 (y + 1) bs (drawRow x0 y b c)

end Sys2Proof.Machine
end

