-- ==== Sys2Proof/Machine/Operands.lean ====
section
/-! DEFINITION. The operand forms (30_encoding.md R78; 10_state.md R21): a register's value, an
immediate used as it is, and the few operands that an instruction derives from them. -/

namespace Sys2Proof.Machine

/-- `zext_16(NNN)` (R78). -/
def zextAddr (nnn : Addr12) : Word := nnn.setWidth 16

/-- `zext_16` of a byte (R141). -/
def zextByte (b : Byte) : Word := b.setWidth 16

/-- The low nibble `b[3:0]`: a key number (R160, decision D10) or a hexadecimal digit (R170). -/
def lowNibble (b : Byte) : Nibble := b.extractLsb' 0 4

/-- The top nibble of the address field, the `X` of the same word (R76, R132). -/
def topNibble (nnn : Addr12) : Nibble := nnn.extractLsb' 8 4

/-- The register that JP V0, nnn adds: V0, or `V[X]` when `Q_JUMP_VX` is true (R8, R132). -/
def jumpReg (s : State) (nnn : Addr12) : Nibble := if s.qJumpVx then topNibble nnn else 0#4

/-- The target of JP V0, nnn: `NNN + V[r]`, not wrapped (R132). -/
def jumpTarget (s : State) (nnn : Addr12) : Nat := nnn.toNat + (s.getV (jumpReg s nnn)).toNat

/-- The operand that SHR and SHL shift: `V[Y]` under `Q.shift_uses_vy`, else `V[X]` (R108, R109). -/
def shiftSource (s : State) (x y : Nibble) : Byte :=
  if s.q.shiftUsesVy then s.getV y else s.getV x

/-- `KEY[V[X][3:0]]` (R160, R161). -/
def keyOf (s : State) (x : Nibble) : Bool := s.getKey (lowNibble (s.getV x))

/-- `FONT_BASE + 5 * V[X][3:0]`, the address of a glyph (R170). -/
def glyphAddr (b : Byte) : Word := BitVec.ofNat 16 (fontBase + 5 * (lowNibble b).toNat)

/-- The base address of every data access: `I`, as an unbounded integer (R55). -/
def dataBase (s : State) : Nat := s.i.toNat

/-- The three decimal digits of a byte, hundreds first (R171, decision D25). -/
def bcdDigits (b : Byte) : List Byte :=
  [BitVec.ofNat 8 (b.toNat / 100), BitVec.ofNat 8 (b.toNat / 10 % 10), BitVec.ofNat 8 (b.toNat % 10)]

/-- `V[0], …, V[X]`, the bytes of a block store (R172). -/
def regBlock (s : State) (x : Nibble) : List Byte := s.v.toList.take (x.toNat + 1)

/-- `I` after a block transfer: `I + X + 1` under `Q.block_incr_i`, else `I` (R172, R173). -/
def indexAfterBlock (s : State) (x : Nibble) : Word :=
  if s.q.blockIncrI then s.i + (x.setWidth 16 + 1#16) else s.i

end Sys2Proof.Machine
end

