-- ==== Sys2Proof/Machine/Flags.lean ====
section
/-! DEFINITION. Every flag computation (10_state.md R22).  The flag is `VF`; it is written after the
result, so it is what remains when the destination is `VF` (40_immediate_alu.md R100, decision D12). -/

namespace Sys2Proof.Machine

/-- Carry out of bit 7 of `a + b` (R106). -/
def carryOut (a b : Byte) : Bool := 255 < a.toNat + b.toNat

/-- NOT borrow of `a - b`: 1 exactly when `a >= b` (R107, R110). -/
def noBorrow (a b : Byte) : Bool := b.toNat ≤ a.toNat

/-- The bit SHR shifts out: bit 0 of the source (R108). -/
def shrOut (src : Byte) : Bool := src.getLsbD 0

/-- The bit SHL shifts out: bit 7 of the source (R109). -/
def shlOut (src : Byte) : Bool := src.getLsbD 7

/-- Result to `V[X]`, then flag to `VF`, then the advance: the shape of 8XY4 to 8XY7 and 8XYE (R100). -/
def writeResultFlag (s : State) (x : Nibble) (r : Byte) (flag : Bool) : State :=
  ((s.setV x r).setVF flag).advance

/-- Result to `V[X]`, then `VF <- 0` under `Q.logic_reset_vf`, then the advance: the shape of 8XY1 to
8XY3 (R103 to R105). -/
def writeLogic (s : State) (x : Nibble) (r : Byte) : State :=
  (if s.q.logicResetVf then (s.setV x r).setVF false else s.setV x r).advance

end Sys2Proof.Machine
end

