-- ==== Sys2Proof/Machine/Arith.lean ====
section
/-! DEFINITION. Immediate and register arithmetic (40_immediate_alu.md R100 to R111).  Both operands are
read before anything is written; results wrap modulo 256. -/

namespace Sys2Proof.Machine

/-- `6XKK` LD Vx, kk (R101). -/
def execLdImm (x : Nibble) (kk : Byte) (s : State) : Host.Outcome State Fault Refusal :=
  .next (s.setV x kk).advance

/-- `7XKK` ADD Vx, kk: no flag (R102). -/
def execAddImm (x : Nibble) (kk : Byte) (s : State) : Host.Outcome State Fault Refusal :=
  .next (s.setV x (s.getV x + kk)).advance

/-- `8XY0` LD Vx, Vy (R111). -/
def execLdReg (x y : Nibble) (s : State) : Host.Outcome State Fault Refusal :=
  .next (s.setV x (s.getV y)).advance

/-- `8XY1` OR Vx, Vy (R103). -/
def execOrReg (x y : Nibble) (s : State) : Host.Outcome State Fault Refusal :=
  .next (writeLogic s x (s.getV x ||| s.getV y))

/-- `8XY2` AND Vx, Vy (R104). -/
def execAndReg (x y : Nibble) (s : State) : Host.Outcome State Fault Refusal :=
  .next (writeLogic s x (s.getV x &&& s.getV y))

/-- `8XY3` XOR Vx, Vy (R105). -/
def execXorReg (x y : Nibble) (s : State) : Host.Outcome State Fault Refusal :=
  .next (writeLogic s x (s.getV x ^^^ s.getV y))

/-- `8XY4` ADD Vx, Vy: the carry is the flag (R106). -/
def execAddReg (x y : Nibble) (s : State) : Host.Outcome State Fault Refusal :=
  .next (writeResultFlag s x (s.getV x + s.getV y) (carryOut (s.getV x) (s.getV y)))

/-- `8XY5` SUB Vx, Vy: NOT borrow is the flag (R107). -/
def execSubReg (x y : Nibble) (s : State) : Host.Outcome State Fault Refusal :=
  .next (writeResultFlag s x (s.getV x - s.getV y) (noBorrow (s.getV x) (s.getV y)))

/-- `8XY7` SUBN Vx, Vy: the operands reversed (R110). -/
def execSubnReg (x y : Nibble) (s : State) : Host.Outcome State Fault Refusal :=
  .next (writeResultFlag s x (s.getV y - s.getV x) (noBorrow (s.getV y) (s.getV x)))

/-- `8XY6` SHR Vx, Vy (R108). -/
def execShrReg (x y : Nibble) (s : State) : Host.Outcome State Fault Refusal :=
  .next (writeResultFlag s x (shiftSource s x y >>> 1) (shrOut (shiftSource s x y)))

/-- `8XYE` SHL Vx, Vy (R109). -/
def execShlReg (x y : Nibble) (s : State) : Host.Outcome State Fault Refusal :=
  .next (writeResultFlag s x (shiftSource s x y <<< 1) (shlOut (shiftSource s x y)))

end Sys2Proof.Machine
end

