-- ==== Sys2Proof/Machine/Flow.lean ====
section
/-! DEFINITION. Jump, call, return and SYS (42_flow.md R130 to R135), with the checks in the order of
60_exceptions.md R189. -/

namespace Sys2Proof.Machine

/-- `1NNN` JP nnn (R131). -/
def execJp (nnn : Addr12) (s : State) : Host.Outcome State Fault Refusal :=
  setPC (zextAddr nnn).toNat s

/-- `BNNN` JP V0, nnn (R132). -/
def execJpV0 (nnn : Addr12) (s : State) : Host.Outcome State Fault Refusal :=
  setPC (jumpTarget s nnn) s

/-- `2NNN` CALL nnn: overflow, then the two checks of the target, then the push of `PC + 2` (R133). -/
def execCall (nnn : Addr12) (s : State) : Host.Outcome State Fault Refusal :=
  match s.push (s.pc + 2#16) with
  | none => raise .stackOverflow
  | some pushed => setPC (zextAddr nnn).toNat pushed

/-- `00EE` RET: underflow, then the bounds of the popped address; no parity check (R134, log entry 12). -/
def execRet (s : State) : Host.Outcome State Fault Refusal :=
  match s.pop with
  | none => raise .stackUnderflow
  | some (t, popped) =>
    if targetOutOfBounds t.toNat then raise (.memoryOutOfBounds t.toNat) else .next (popped.setPc t)

/-- `0NNN` SYS nnn: its one meaning is to raise `UnknownOpcode` of its own word (R135, R82). -/
def execSys (nnn : Addr12) (_s : State) : Host.Outcome State Fault Refusal :=
  raise (.unknownOpcode (zextAddr nnn))

end Sys2Proof.Machine
end

