-- ==== Sys2Proof/Machine/FontBlock.lean ====
section
/-! DEFINITION. Font address, BCD store and register block transfers (46_font_bcd_block.md R170 to
R173).  A block access happens whole or not at all (20_memory.md R62). -/

namespace Sys2Proof.Machine

/-- `FX29` LD F, Vx: no memory is accessed (R170). -/
def execLdFont (x : Nibble) (s : State) : Host.Outcome State Fault Refusal :=
  .next (s.setI (glyphAddr (s.getV x))).advance

/-- `FX33` LD B, Vx: three digits at `I`, `I + 1`, `I + 2`; `I` is kept under every quirk (R171). -/
def execLdBcd (x : Nibble) (s : State) : Host.Outcome State Fault Refusal :=
  match memWriteBlock s.mem (dataBase s) (bcdDigits (s.getV x)) with
  | .error f => raise f
  | .ok m => .next (s.setMem m).advance

/-- `FX55` LD [I], Vx (R172). -/
def execStoreRegs (x : Nibble) (s : State) : Host.Outcome State Fault Refusal :=
  match memWriteBlock s.mem (dataBase s) (regBlock s x) with
  | .error f => raise f
  | .ok m => .next ((s.setMem m).setI (indexAfterBlock s x)).advance

/-- `FX65` LD Vx, [I] (R173). -/
def execLoadRegs (x : Nibble) (s : State) : Host.Outcome State Fault Refusal :=
  match memReadBlock s.mem (dataBase s) (x.toNat + 1) with
  | .error f => raise f
  | .ok bs => .next ((s.setRegs (Regs.load s.v 0 bs)).setI (indexAfterBlock s x)).advance

end Sys2Proof.Machine
end

