-- ==== Sys2Proof/Machine/Index.lean ====
section
/-! DEFINITION. The index register instructions (43_index.md R140, R141).  Neither checks a bound. -/

namespace Sys2Proof.Machine

/-- `ANNN` LD I, nnn (R140). -/
def execLdI (nnn : Addr12) (s : State) : Host.Outcome State Fault Refusal :=
  .next (s.setI (zextAddr nnn)).advance

/-- `FX1E` ADD I, Vx: wraps modulo 65536, never writes VF (R141, decision D3). -/
def execAddI (x : Nibble) (s : State) : Host.Outcome State Fault Refusal :=
  .next (s.setI (s.i + zextByte (s.getV x))).advance

end Sys2Proof.Machine
end

