-- ==== Sys2Proof/Machine/KeysTimers.lean ====
section
/-! DEFINITION. Keypad and timer instructions (45_keys_timers.md R160 to R165).  No instruction writes a
key flag (decision D11). -/

namespace Sys2Proof.Machine

/-- `EX9E` SKP Vx (R160). -/
def execSkp (x : Nibble) (s : State) : Host.Outcome State Fault Refusal :=
  .next (s.skipIf (keyOf s x))

/-- `EXA1` SKNP Vx (R161). -/
def execSknp (x : Nibble) (s : State) : Host.Outcome State Fault Refusal :=
  .next (s.skipIf (!keyOf s x))

/-- `FX07` LD Vx, DT (R162). -/
def execLdFromDt (x : Nibble) (s : State) : Host.Outcome State Fault Refusal :=
  .next (s.setV x s.dt).advance

/-- `FX15` LD DT, Vx (R163). -/
def execLdDt (x : Nibble) (s : State) : Host.Outcome State Fault Refusal :=
  .next (s.setDt (s.getV x)).advance

/-- `FX18` LD ST, Vx (R164). -/
def execLdSt (x : Nibble) (s : State) : Host.Outcome State Fault Refusal :=
  .next (s.setSt (s.getV x)).advance

/-- `FX0A` LD Vx, K: a captured key completes it; while waiting nothing changes; else the wait begins
(R165, decision D9).  PC moves only on completion. -/
def execLdKey (x : Nibble) (s : State) : Host.Outcome State Fault Refusal :=
  match s.capt with
  | some k => .next ((s.setV x (k.setWidth 8)).setWait s.await none).advance
  | none => if s.await then .next s else .next (s.setWait true none)

end Sys2Proof.Machine
end

