-- ==== Sys2Proof/Machine/RandomDisplay.lean ====
section
/-! DEFINITION. Random and display instructions (44_random_display.md R150 to R152). -/

namespace Sys2Proof.Machine

/-- `CXKK` RND Vx, kk: a drawn byte ANDed with the mask (R150).  The byte is a free value. -/
def execRnd (x : Nibble) (kk : Byte) (s : State) : Host.Outcome State Fault Refusal :=
  .next (s.countDraw.setV x (s.nextDraw &&& kk)).advance

/-- `DXYN` DRW Vx, Vy, n: coordinates first, then the bounds of the whole sprite, then the pixels, then
`VF` (R151).  `I` is not changed. -/
def execDrw (x y n : Nibble) (s : State) : Host.Outcome State Fault Refusal :=
  match memReadBlock s.mem (dataBase s) n.toNat with
  | .error f => raise f
  | .ok sprite =>
    let drawn := drawSprite (s.getV x).toNat (s.getV y).toNat sprite (s.disp, false)
    .next ((s.setDisp drawn.1).setVF drawn.2).advance

/-- `00E0` CLS: every cell 0, `VF` left alone (R152, decision D23). -/
def execCls (s : State) : Host.Outcome State Fault Refusal :=
  .next (s.setDisp Display.blank).advance

end Sys2Proof.Machine
end

