-- ==== Sys2Proof/Machine/Skips.lean ====
section
/-! DEFINITION. The conditional skips (41_skips.md R120 to R124).  A skip writes nothing but PC. -/

namespace Sys2Proof.Machine

/-- `3XKK` SE Vx, kk (R121). -/
def execSeImm (x : Nibble) (kk : Byte) (s : State) : Host.Outcome State Fault Refusal :=
  .next (s.skipIf (s.getV x == kk))

/-- `4XKK` SNE Vx, kk (R122). -/
def execSneImm (x : Nibble) (kk : Byte) (s : State) : Host.Outcome State Fault Refusal :=
  .next (s.skipIf (s.getV x != kk))

/-- `5XY0` SE Vx, Vy (R123). -/
def execSeReg (x y : Nibble) (s : State) : Host.Outcome State Fault Refusal :=
  .next (s.skipIf (s.getV x == s.getV y))

/-- `9XY0` SNE Vx, Vy (R124). -/
def execSneReg (x y : Nibble) (s : State) : Host.Outcome State Fault Refusal :=
  .next (s.skipIf (s.getV x != s.getV y))

end Sys2Proof.Machine
end

