-- ==== Sys2Proof/WellFormed.lean ====
section
/-! DEFINITION. Which terms of `Instr` are instructions.  The operand types already hold every field in
its range (30_encoding.md R76, R78); what is left is that `SYS nnn` is every word 0NNN OTHER THAN 00E0
and 00EE, which are CLS and RET (42_flow.md R135, 30_encoding.md R79). -/

namespace Sys2Proof

/-- `i` is an instruction: some word decodes to it (R79). -/
def Instr.wellFormed : Instr → Bool
  | .sys nnn => nnn != 0x0E0#12 && nnn != 0x0EE#12
  | .cls | .ret | .jp _ | .call _ | .seImm _ _ | .sneImm _ _ | .seReg _ _ | .ldImm _ _ | .addImm _ _
  | .ldReg _ _ | .orReg _ _ | .andReg _ _ | .xorReg _ _ | .addReg _ _ | .subReg _ _ | .shrReg _ _
  | .subnReg _ _ | .shlReg _ _ | .sneReg _ _ | .ldI _ | .jpV0 _ | .rnd _ _ | .drw _ _ _ | .skp _
  | .sknp _ | .ldFromDt _ | .ldKey _ | .ldDt _ | .ldSt _ | .addI _ | .ldFont _ | .ldBcd _
  | .storeRegs _ | .loadRegs _ => true

end Sys2Proof
end

