-- ==== Sys2Proof/Decode.lean ====
section
/-! DEFINITION. Decoding (30_encoding.md R75 to R82) and, after it, encoding (R77, R85).  All bit
patterns are the spec's, which marks them general knowledge (log entry 4). -/

namespace Sys2Proof

/-! ### Fields of the instruction word (R76) -/

/-- `F` = bits[15:12], the family selector. -/
def fieldF (op : Word) : Nibble := op.extractLsb' 12 4

/-- `X` = bits[11:8]. -/
def fieldX (op : Word) : Nibble := op.extractLsb' 8 4

/-- `Y` = bits[7:4]. -/
def fieldY (op : Word) : Nibble := op.extractLsb' 4 4

/-- `N` = bits[3:0]. -/
def fieldN (op : Word) : Nibble := op.extractLsb' 0 4

/-- `KK` = bits[7:0]. -/
def fieldKK (op : Word) : Byte := op.extractLsb' 0 8

/-- `NNN` = bits[11:0]. -/
def fieldNNN (op : Word) : Addr12 := op.extractLsb' 0 12

/-- The big-endian word of two bytes: the byte at the lower address is bits[15:8] (R57, R75). -/
def wordOfBytes (hi lo : Byte) : Word := hi ++ lo

/-- The byte of a word that is stored at the lower address (R57). -/
def highByte (op : Word) : Byte := op.extractLsb' 8 8

/-- The byte of a word that is stored at the higher address (R57). -/
def lowByte (op : Word) : Byte := op.extractLsb' 0 8

/-! ### Decoding (R79) -/

/-- Why bytes are no instruction. -/
inductive DecodeError where
  /-- fewer than the two bytes an instruction has (R75) -/
  | truncated
  /-- the word matches no row of R79 (R81) -/
  | unknownOpcode (op : Word)
  deriving DecidableEq, Repr

/-- Family 8, sub-selected by the low nibble (R79). -/
def decodeArith (op : Word) : Except DecodeError Instr :=
  let x := fieldX op
  let y := fieldY op
  match (fieldN op).toNat with
  | 0x0 => .ok (.ldReg x y)
  | 0x1 => .ok (.orReg x y)
  | 0x2 => .ok (.andReg x y)
  | 0x3 => .ok (.xorReg x y)
  | 0x4 => .ok (.addReg x y)
  | 0x5 => .ok (.subReg x y)
  | 0x6 => .ok (.shrReg x y)
  | 0x7 => .ok (.subnReg x y)
  | 0xE => .ok (.shlReg x y)
  | _ => .error (.unknownOpcode op)

/-- Family E, sub-selected by the low byte (R79). -/
def decodeKeys (op : Word) : Except DecodeError Instr :=
  match (fieldKK op).toNat with
  | 0x9E => .ok (.skp (fieldX op))
  | 0xA1 => .ok (.sknp (fieldX op))
  | _ => .error (.unknownOpcode op)

/-- Family F, sub-selected by the low byte (R79). -/
def decodeMisc (op : Word) : Except DecodeError Instr :=
  let x := fieldX op
  match (fieldKK op).toNat with
  | 0x07 => .ok (.ldFromDt x)
  | 0x0A => .ok (.ldKey x)
  | 0x15 => .ok (.ldDt x)
  | 0x18 => .ok (.ldSt x)
  | 0x1E => .ok (.addI x)
  | 0x29 => .ok (.ldFont x)
  | 0x33 => .ok (.ldBcd x)
  | 0x55 => .ok (.storeRegs x)
  | 0x65 => .ok (.loadRegs x)
  | _ => .error (.unknownOpcode op)

/-- Family 0: the two whole words first, every other word is SYS (R79, R82). -/
def decodeZero (op : Word) : Except DecodeError Instr :=
  if op = 0x00E0#16 then .ok .cls
  else if op = 0x00EE#16 then .ok .ret
  else .ok (.sys (fieldNNN op))

/-- The form of families 5 and 9, whose low nibble must be 0 (R79, R81, decision D14). -/
def decodeLowZero (op : Word) (i : Instr) : Except DecodeError Instr :=
  if fieldN op = 0#4 then .ok i else .error (.unknownOpcode op)

/-- Decoding of one word, total, by the family nibble (R79). -/
def decodeWord (op : Word) : Except DecodeError Instr :=
  match (fieldF op).toNat with
  | 0x0 => decodeZero op
  | 0x1 => .ok (.jp (fieldNNN op))
  | 0x2 => .ok (.call (fieldNNN op))
  | 0x3 => .ok (.seImm (fieldX op) (fieldKK op))
  | 0x4 => .ok (.sneImm (fieldX op) (fieldKK op))
  | 0x5 => decodeLowZero op (.seReg (fieldX op) (fieldY op))
  | 0x6 => .ok (.ldImm (fieldX op) (fieldKK op))
  | 0x7 => .ok (.addImm (fieldX op) (fieldKK op))
  | 0x8 => decodeArith op
  | 0x9 => decodeLowZero op (.sneReg (fieldX op) (fieldY op))
  | 0xA => .ok (.ldI (fieldNNN op))
  | 0xB => .ok (.jpV0 (fieldNNN op))
  | 0xC => .ok (.rnd (fieldX op) (fieldKK op))
  | 0xD => .ok (.drw (fieldX op) (fieldY op) (fieldN op))
  | 0xE => decodeKeys op
  | 0xF => decodeMisc op
  | _ => .error (.unknownOpcode op)

/-- Decoding of a byte stream: an instruction is exactly two bytes, high byte first (R57, R75); the
rest of the stream is handed back. -/
def decodeBytes : List Byte → Except DecodeError (Instr × List Byte)
  | hi :: lo :: rest =>
    match decodeWord (wordOfBytes hi lo) with
    | .ok i => .ok (i, rest)
    | .error e => .error e
  | [] | [_] => .error .truncated

/-! ### Encoding (R77, R85) -/

/-- Format `NNN`: `match` with the 12-bit field in bits[11:0] (R77). -/
def encodeNNN (m : Word) (nnn : Addr12) : Word := m ||| nnn.setWidth 16

/-- Format `XKK`: `X << 8` and `KK` (R77, R85). -/
def encodeXKK (m : Word) (x : Nibble) (kk : Byte) : Word :=
  m ||| (x.setWidth 16 <<< 8) ||| kk.setWidth 16

/-- Format `XYN`: `X << 8`, `Y << 4` and `N` (R77, R85). -/
def encodeXYN (m : Word) (x y n : Nibble) : Word :=
  m ||| (x.setWidth 16 <<< 8) ||| (y.setWidth 16 <<< 4) ||| n.setWidth 16

/-- Format `XY`: `X << 8` and `Y << 4`; the low nibble is in `match` (R77, R85). -/
def encodeXY (m : Word) (x y : Nibble) : Word :=
  m ||| (x.setWidth 16 <<< 8) ||| (y.setWidth 16 <<< 4)

/-- Format `X`: `X << 8`; the low byte is in `match` (R77, R85). -/
def encodeX (m : Word) (x : Nibble) : Word := m ||| (x.setWidth 16 <<< 8)

/-- The word of an instruction: its row's `match` with the operand fields put in (R80, R85). -/
def encode : Instr → Word
  | .cls => 0x00E0#16
  | .ret => 0x00EE#16
  | .sys nnn => encodeNNN 0x0000#16 nnn
  | .jp nnn => encodeNNN 0x1000#16 nnn
  | .call nnn => encodeNNN 0x2000#16 nnn
  | .seImm x kk => encodeXKK 0x3000#16 x kk
  | .sneImm x kk => encodeXKK 0x4000#16 x kk
  | .seReg x y => encodeXY 0x5000#16 x y
  | .ldImm x kk => encodeXKK 0x6000#16 x kk
  | .addImm x kk => encodeXKK 0x7000#16 x kk
  | .ldReg x y => encodeXY 0x8000#16 x y
  | .orReg x y => encodeXY 0x8001#16 x y
  | .andReg x y => encodeXY 0x8002#16 x y
  | .xorReg x y => encodeXY 0x8003#16 x y
  | .addReg x y => encodeXY 0x8004#16 x y
  | .subReg x y => encodeXY 0x8005#16 x y
  | .shrReg x y => encodeXY 0x8006#16 x y
  | .subnReg x y => encodeXY 0x8007#16 x y
  | .shlReg x y => encodeXY 0x800E#16 x y
  | .sneReg x y => encodeXY 0x9000#16 x y
  | .ldI nnn => encodeNNN 0xA000#16 nnn
  | .jpV0 nnn => encodeNNN 0xB000#16 nnn
  | .rnd x kk => encodeXKK 0xC000#16 x kk
  | .drw x y n => encodeXYN 0xD000#16 x y n
  | .skp x => encodeX 0xE09E#16 x
  | .sknp x => encodeX 0xE0A1#16 x
  | .ldFromDt x => encodeX 0xF007#16 x
  | .ldKey x => encodeX 0xF00A#16 x
  | .ldDt x => encodeX 0xF015#16 x
  | .ldSt x => encodeX 0xF018#16 x
  | .addI x => encodeX 0xF01E#16 x
  | .ldFont x => encodeX 0xF029#16 x
  | .ldBcd x => encodeX 0xF033#16 x
  | .storeRegs x => encodeX 0xF055#16 x
  | .loadRegs x => encodeX 0xF065#16 x

/-- The two bytes of an instruction at ascending addresses (R57, R85). -/
def encodeBytes (i : Instr) : List Byte := [highByte (encode i), lowByte (encode i)]

/-! ### The table's numbering of bits -/

/-- The instruction word whose bits the opcode table numbers as `w`: bit 0 is the word's least
significant bit, and every bit at or above `nbits` is 0.  One word is the whole instruction (R75). -/
def tableWord (nbits w : Nat) : Word := BitVec.ofNat 16 (w % 2 ^ nbits)

/-- What the decoder reads from the bytes of the table's word `w`, laid out high byte first (R57). -/
def decodeTableWord (nbits w : Nat) : Option Instr :=
  match decodeBytes [highByte (tableWord nbits w), lowByte (tableWord nbits w)] with
  | .ok (i, _) => some i
  | .error _ => none

end Sys2Proof
end

