-- ==== Sys2Proof/Machine/Fetch.lean ====
section
/-! DEFINITION. Fetch and decode (00_scope.md R11, parts 1 and 2; 20_memory.md R53, R57, R58).  The fetch
changes nothing and makes no parity check. -/

namespace Sys2Proof.Machine

/-- `op <- MemRead(PC, 2)` (R11, R53). -/
def fetchWord (s : State) : Except Fault Word := memRead2 s.mem s.pc.toNat

/-- The instruction at PC, or the fault of the fetch or of the decoder (R11, R181, R189). -/
def fetchInstr (s : State) : Except Fault Instr :=
  match fetchWord s with
  | .error f => .error f
  | .ok op =>
    match decodeWord op with
    | .ok i => .ok i
    | .error _ => .error (.unknownOpcode op)

/-- The state in which the next fetch reads the word `op`: its two bytes stored at PC, high byte first.
Where no fetch succeeds at PC (R53), PC is the entry address instead.  Stands for the host's load of a
program (log entry 10). -/
def placeWord (s : State) (op : Word) : State :=
  let pc := if s.pc.toNat + 1 < Config.memSize then s.pc else BitVec.ofNat 16 Config.entry
  (s.setPc pc).setMem (s.mem.writeBytes pc.toNat [highByte op, lowByte op])

end Sys2Proof.Machine
end

