-- ==== Sys2Proof/Machine/Step.lean ====
section
/-! DEFINITION. `STEP`: fetch, decode, execute (00_scope.md R11). -/

namespace Sys2Proof.Machine

/-- One fetch-decode-execute cycle (R11).  Every state change is the instruction's own. -/
def step (s : State) : Host.Outcome State Fault Refusal :=
  match fetchInstr s with
  | .error f => raise f
  | .ok i => exec i s

/-- `s` with the instruction of the opcode table's word `w` stored where `step` fetches next, so that the
next step runs it (log entry 10). -/
def State.withFetchWord (s : State) (nbits w : Nat) : State := placeWord s (tableWord nbits w)

end Sys2Proof.Machine
end

