-- ==== Sys2Proof/Machine/HostOps.lean ====
section
/-! DEFINITION. The six operations of the host (00_scope.md R10; 60_exceptions.md R192), each a
transition of its own, applied between steps, and any interleaving of them with `STEP`. -/

namespace Sys2Proof.Machine

/-- What `LOAD_ROM` is given: the token `unreadable` or a finite sequence of bytes (R65). -/
inductive Rom where
  | unreadable
  | bytes (r : List Byte)
  deriving DecidableEq, Repr

/-- The seven atomic operations of R10.  A key number is 4 bits, so a key above 15, which the host must
not issue (R226), cannot be written. -/
inductive Op where
  | step
  | reset
  | loadRom (r : Rom)
  | tick
  | keyDown (k : Nibble)
  | keyUp (k : Nibble)
  | setQuirks (q : Quirks)
  deriving DecidableEq, Repr

/-- `RESET` (R210): the table of R37; `Q`, `Q_JUMP_VX` and the random source are not touched (R212). -/
def opReset (s : State) : State :=
  { State.initial s.q s.qJumpVx with rngDraws := s.rngDraws }

/-- `LOAD_ROM(r)`: the bytes verbatim from the entry address, and `ROM_LOADED <- 1` (R65). -/
def opLoadRom (r : Rom) (s : State) : Host.Outcome State Fault Refusal :=
  match r with
  | .unreadable => raise .romLoadError
  | .bytes bs =>
    if bs.length ≤ Config.romMax then
      .next { s.setMem (s.mem.writeBytes Config.entry bs) with romLoaded := true }
    else raise .romLoadError

/-- A timer after one tick: one less, or 0 (R193). -/
def countDown (b : Byte) : Byte := if 0 < b.toNat then b - 1#8 else b

/-- `TICK` (R193). -/
def opTick (s : State) : State := (s.setDt (countDown s.dt)).setSt (countDown s.st)

/-- `KEY_DOWN(k)`: the event sets the flag and, while waiting, ends the wait and is captured (R194). -/
def opKeyDown (k : Nibble) (s : State) : State :=
  if s.await then (s.setKey k true).setWait false (some k) else s.setKey k true

/-- `KEY_UP(k)` (R195). -/
def opKeyUp (k : Nibble) (s : State) : State := s.setKey k false

/-- `SET_QUIRKS(q)` (R196). -/
def opSetQuirks (q : Quirks) (s : State) : State := { s with q := q }

/-- One operation of the core or of the host (R10). -/
def operate (o : Op) (s : State) : Host.Outcome State Fault Refusal :=
  match o with
  | .step => step s
  | .reset => .next (opReset s)
  | .loadRom r => opLoadRom r s
  | .tick => .next (opTick s)
  | .keyDown k => .next (opKeyDown k s)
  | .keyUp k => .next (opKeyUp k s)
  | .setQuirks q => .next (opSetQuirks q s)

/-- The state an operation leaves: where it faults, exactly the state it began in (R187), from which the
host may go on with any operation (R188). -/
def after (o : Op) (s : State) : State :=
  match operate o s with
  | .next t => t
  | .fault _ => s
  | .refused _ => s

/-- The state after a schedule of the host: a sequence of operations in any order and number (R10). -/
def afterAll : List Op → State → State
  | [], s => s
  | o :: os, s => afterAll os (after o s)

/-- A schedule run to its end, stopping at the first fault (R190). -/
def runSchedule : List Op → State → Host.Outcome State Fault Refusal
  | [], s => .next s
  | o :: os, s =>
    match operate o s with
    | .next t => runSchedule os t
    | .fault f => .fault f
    | .refused r => .refused r

end Sys2Proof.Machine
end

