-- ==== Sys2Proof/Machine/Observe.lean ====
section
/-! DEFINITION. What the host sees (10_state.md R38, R39): read-only functions of the state, none of
which any rule reads. -/

namespace Sys2Proof.Machine

/-- The two execution states (R38). -/
inductive ExecState where
  | running
  | awaitingKey
  deriving DecidableEq, Repr

/-- The execution state is a function of the state (R38). -/
def State.execState (s : State) : ExecState := if s.await then .awaitingKey else .running

/-- The host's view of the display: 2048 bytes, row-major, each 0 or 1 (R28). -/
def State.displayBytes (s : State) : List Byte :=
  s.disp.toList.flatMap fun row => row.toList.map fun lit => if lit then 1#8 else 0#8

/-- The tone line `ST > 0` (R31, R39). -/
def State.toneOn (s : State) : Bool := 0 < s.st.toNat

/-- The `drew` result of executing the word `op`: 1 exactly for a draw-sprite word (R39). -/
def drewOf (op : Word) : Bool := fieldF op == 0xD#4

/-- The `drew` result that a successful `STEP` from `s` returns (R39). -/
def State.drew (s : State) : Bool :=
  match fetchWord s with
  | .ok op => drewOf op
  | .error _ => false

end Sys2Proof.Machine
end

