-- ==== Sys2Proof/Safety.lean ====
section
/-! DEFINITION. The terms in which claims are made: the invariant of the reachable states, what a safe
run and the end of a run are (60_exceptions.md R190, R206), and what an operation leaves unchanged
(00_scope.md R14). -/

namespace Sys2Proof.Machine

/-! ### The invariant -/

/-- Every held return address is even and at most 0x1000 (R134). -/
def State.stackOk (s : State) : Prop :=
  ∀ j : Fin 16, j.val < s.sp.val → s.stack[j].toNat % 2 = 0 ∧ s.stack[j].toNat ≤ 0x1000

/-- What holds of every state reachable from `RESET`: memory is canonical, PC is even and at most 0x1002
(R25), the held return addresses are those of calls (R134), and a wait has captured nothing (R32). -/
structure State.Inv (s : State) : Prop where
  mem : s.mem.wf = true
  pcEven : s.pc.toNat % 2 = 0
  pcBound : s.pc.toNat ≤ 0x1002
  stack : s.stackOk
  wait : s.await = true → s.capt = none

/-! ### Safe runs -/

/-- A step that does not fault (R190). -/
def State.StepsSafely (s : State) : Prop := ∃ t, step s = .next t

/-- The model's end-of-run predicate (R206; DESIGN CHOICE, log entry 23): PC points at a JP to its own
address, so every further `STEP` leaves the state as it is.  IT DOES NOT COVER: a run that ends in a fault
(`StepsSafely` says that of one step); a program that waits for a key, or polls a timer, and hangs because
the host never acts; a loop of more than one instruction; a JP V0 to its own address.  Nor does it say
that the state stays when the host acts: `TICK`, the key events, `SET_QUIRKS`, `LOAD_ROM` and `RESET`
apply here as anywhere. -/
def State.atSelfJump (s : State) : Prop :=
  ∃ nnn, fetchInstr s = .ok (.jp nnn) ∧ nnn.toNat = s.pc.toNat

/-! ### Frames: what two states have in common (R14) -/

/-- The pieces of state other than PC. -/
inductive Part where
  /-- `V[0..15]` -/
  | regs
  /-- `I` -/
  | index
  /-- `SP` and `STACK` -/
  | stack
  /-- `MEM` -/
  | mem
  /-- `DISP` -/
  | disp
  /-- `DT` -/
  | dt
  /-- `ST` -/
  | st
  /-- `KEY` -/
  | keys
  /-- `AWAIT` and `CAPT` -/
  | wait
  /-- `Q` -/
  | quirks
  /-- `ROM_LOADED` -/
  | romLoaded
  /-- `Q_JUMP_VX` -/
  | jumpVx
  /-- the number of random bytes drawn -/
  | draws
  deriving DecidableEq, Repr

/-- The piece of state is the same in both states, read cell by cell. -/
def Part.same : Part → State → State → Prop
  | .regs, s, t => ∀ r, t.getV r = s.getV r
  | .index, s, t => t.i = s.i
  | .stack, s, t => t.sp = s.sp ∧ ∀ j : Fin 16, t.stack[j] = s.stack[j]
  | .mem, s, t => ∀ a, t.mem.read a = s.mem.read a
  | .disp, s, t => ∀ x y, t.disp.pixel x y = s.disp.pixel x y
  | .dt, s, t => t.dt = s.dt
  | .st, s, t => t.st = s.st
  | .keys, s, t => ∀ k, t.getKey k = s.getKey k
  | .wait, s, t => t.await = s.await ∧ t.capt = s.capt
  | .quirks, s, t => t.q = s.q
  | .romLoaded, s, t => t.romLoaded = s.romLoaded
  | .jumpVx, s, t => t.qJumpVx = s.qJumpVx
  | .draws, s, t => t.rngDraws = s.rngDraws

/-- Nothing but PC and the pieces of `parts` differs between the two states. -/
def OnlyChanges (parts : List Part) (s t : State) : Prop := ∀ p, p ∉ parts → p.same s t

/-- Every general register but those in `written` is the same. -/
def SameRegsExcept (written : List Nibble) (s t : State) : Prop :=
  ∀ r, r ∉ written → t.getV r = s.getV r

/-- Every byte of memory outside `[lo, lo + n)` reads the same. -/
def SameMemOutside (lo n : Nat) (s t : State) : Prop :=
  ∀ a, (a < lo ∨ lo + n ≤ a) → t.mem.read a = s.mem.read a

/-- The word at PC, high byte first (R57). -/
def State.wordAtPc (s : State) : Word := s.mem.read s.pc.toNat ++ s.mem.read (s.pc.toNat + 1)

/-! ### Comparing and repeating outcomes -/

/-- An outcome with its next state changed by `g`; a stop stays as it is. -/
def mapNext (g : State → State) :
    Host.Outcome State Fault Refusal → Host.Outcome State Fault Refusal
  | .next t => .next (g t)
  | .fault f => .fault f
  | .refused r => .refused r

/-- Two outcomes agree up to `R`: the same stop, or next states that `R` relates. -/
def OutcomesAgree (R : State → State → Prop) :
    Host.Outcome State Fault Refusal → Host.Outcome State Fault Refusal → Prop
  | .next t, .next t' => R t t'
  | .fault f, .fault f' => f = f'
  | .refused r, .refused r' => r = r'
  | _, _ => False

/-- Two states that differ at most in stack slots at or above `SP` (R26). -/
def SameButDeadSlots (s s' : State) : Prop :=
  s' = { s with stack := s'.stack } ∧ ∀ j : Fin 16, j.val < s.sp.val → s'.stack[j] = s.stack[j]

/-- The same instruction executed `n` times, stopping at the first stop. -/
def execTimes (i : Instr) : Nat → State → Host.Outcome State Fault Refusal
  | 0, s => .next s
  | n + 1, s =>
    match exec i s with
    | .next t => execTimes i n t
    | .fault f => .fault f
    | .refused r => .refused r

end Sys2Proof.Machine
end

