-- ==== Sys2Proof/Certificates/Slice0/Obligations.lean ====
section
/-! DEFINITION. The statements about the model, from the numbered rules of the spec.  Each docstring names
the rule it formalises; where a clause rests on a decision of the spec (92_eei_decisions.md), on a
passage the spec marks as derived or as general knowledge, or on a log entry of the model, it says so. -/

open Sys2Proof Sys2Proof.Machine

/-! ### Decoding and encoding -/

/-- Words written out from the spec's patterns (R79, R80; 95_test_vectors.md 2.14), at least one of each of
the sixteen families that the high nibble selects, decode to the instructions they stand for, and three
illegal words are rejected by name.  The patterns are general knowledge of the spec's author (log entry 4). -/
def Obligations.SpecWordsDecode : Prop :=
  decodeWord 0x00E0#16 = .ok .cls ∧ decodeWord 0x00EE#16 = .ok .ret ∧
  decodeWord 0x0123#16 = .ok (.sys 0x123#12) ∧ decodeWord 0x120C#16 = .ok (.jp 0x20C#12) ∧
  decodeWord 0x2FFE#16 = .ok (.call 0xFFE#12) ∧ decodeWord 0x3FFF#16 = .ok (.seImm 0xF#4 0xFF#8) ∧
  decodeWord 0x4A2B#16 = .ok (.sneImm 0xA#4 0x2B#8) ∧ decodeWord 0x5FF0#16 = .ok (.seReg 0xF#4 0xF#4) ∧
  decodeWord 0x609C#16 = .ok (.ldImm 0x0#4 0x9C#8) ∧ decodeWord 0x7FFF#16 = .ok (.addImm 0xF#4 0xFF#8) ∧
  decodeWord 0x8127#16 = .ok (.subnReg 0x1#4 0x2#4) ∧ decodeWord 0x834E#16 = .ok (.shlReg 0x3#4 0x4#4) ∧
  decodeWord 0x9010#16 = .ok (.sneReg 0x0#4 0x1#4) ∧ decodeWord 0xAFFF#16 = .ok (.ldI 0xFFF#12) ∧
  decodeWord 0xB300#16 = .ok (.jpV0 0x300#12) ∧ decodeWord 0xC50F#16 = .ok (.rnd 0x5#4 0x0F#8) ∧
  decodeWord 0xD125#16 = .ok (.drw 0x1#4 0x2#4 0x5#4) ∧ decodeWord 0xE0A1#16 = .ok (.sknp 0x0#4) ∧
  decodeWord 0xF355#16 = .ok (.storeRegs 0x3#4) ∧
  decodeWord 0x5001#16 = .error (.unknownOpcode 0x5001#16) ∧
  decodeWord 0x8008#16 = .error (.unknownOpcode 0x8008#16) ∧
  decodeWord 0xF075#16 = .error (.unknownOpcode 0xF075#16)

/-- Decode of encode is the identity on every well-formed instruction, whatever bytes follow (R77, R79,
R85; R85 is marked derived). -/
def Obligations.DecodeOfEncodeIsIdentity : Prop :=
  ∀ (i : Instr) (rest : List Byte), i.wellFormed = true →
    decodeBytes (encodeBytes i ++ rest) = .ok (i, rest)

/-- Every legal pair of bytes stands for exactly one instruction, whose encoding it is: encode of decode
is the identity too (R85, marked derived). -/
def Obligations.EncodeOfDecodeIsIdentity : Prop :=
  ∀ (hi lo : Byte) (rest rest' : List Byte) (i : Instr),
    decodeBytes (hi :: lo :: rest) = .ok (i, rest') →
      i.wellFormed = true ∧ encodeBytes i = [hi, lo] ∧ rest' = rest

/-- The illegal words of R81, family by family, with those that decode to SYS (R82) among them. -/
def IllegalWord (op : Word) : Prop :=
  let F := op.toNat / 4096
  let N := op.toNat % 16
  let KK := op.toNat % 256
  (F = 0 ∧ op.toNat ≠ 0x00E0 ∧ op.toNat ≠ 0x00EE) ∨
  (F = 5 ∧ N ≠ 0) ∨
  (F = 8 ∧ N ∈ [0x8, 0x9, 0xA, 0xB, 0xC, 0xD, 0xF]) ∨
  (F = 9 ∧ N ≠ 0) ∨
  (F = 0xE ∧ KK ∉ [0x9E, 0xA1]) ∨
  (F = 0xF ∧ KK ∉ [0x07, 0x0A, 0x15, 0x18, 0x1E, 0x29, 0x33, 0x55, 0x65])

/-- A step reports `UnknownOpcode(op)` exactly when the fetch succeeds and gives an illegal word `op`
(R81, R82, R135, R181; decisions D13, D14). -/
def Obligations.UnknownOpcodeExactlyOnIllegalWords : Prop :=
  ∀ (s : State) (op : Word),
    step s = .fault (.unknownOpcode op) ↔
      s.pc.toNat + 1 ≤ 4095 ∧ op = s.wordAtPc ∧ IllegalWord op

/-! ### The step -/

/-- A step runs the decoded instruction: where both bytes at PC exist and decode to `i`, the step is the
execution of `i` in the unchanged state; the step itself adds nothing (R11, decision D20). -/
def Obligations.StepRunsDecodedInstruction : Prop :=
  ∀ (s : State) (i : Instr), s.pc.toNat + 1 ≤ 4095 →
    decodeBytes [s.mem.read s.pc.toNat, s.mem.read (s.pc.toNat + 1)] = .ok (i, []) →
      step s = exec i s

/-- A fetch that would read outside memory is reported with PC itself, whatever memory holds (R53, R180;
decision D6). -/
def Obligations.FetchOutOfBoundsFaults : Prop :=
  ∀ s : State, 4095 < s.pc.toNat + 1 → step s = .fault (.memoryOutOfBounds s.pc.toNat)

/-- What makes a control-transfer target fault: bounds before parity (R130; decisions D6, D8). -/
def TargetFault (t : Nat) (f : Fault) : Prop :=
  (4095 < t + 1 ∧ f = .memoryOutOfBounds t) ∨ (t + 1 ≤ 4095 ∧ t % 2 = 1 ∧ f = .misalignedPC t)

/-- What makes a data access of `n` bytes at `a` fault (R53 to R55, R180; decision D6). -/
def DataFault (a n : Nat) (f : Fault) : Prop :=
  0 < n ∧ 4095 < a + n - 1 ∧ f = .memoryOutOfBounds (max a 4096)

/-- The table of R180 for one instruction, in the order of R189. -/
def FaultOf (s : State) (f : Fault) : Instr → Prop
  | .sys nnn => f = .unknownOpcode (BitVec.ofNat 16 nnn.toNat)
  | .jp nnn => TargetFault nnn.toNat f
  | .jpV0 nnn =>
      TargetFault (nnn.toNat + (s.getV (if s.qJumpVx then nnn.extractLsb' 8 4 else 0#4)).toNat) f
  | .call nnn => (s.sp.val = 16 ∧ f = .stackOverflow) ∨ (s.sp.val < 16 ∧ TargetFault nnn.toNat f)
  | .ret => (s.sp.val = 0 ∧ f = .stackUnderflow) ∨
      ∃ j : Fin 16, j.val + 1 = s.sp.val ∧ 4095 < s.stack[j].toNat + 1 ∧
        f = .memoryOutOfBounds s.stack[j].toNat
  | .drw _ _ n => DataFault s.i.toNat n.toNat f
  | .ldBcd _ => DataFault s.i.toNat 3 f
  | .storeRegs x | .loadRegs x => DataFault s.i.toNat (x.toNat + 1) f
  | _ => False

/-- Which instruction faults, when, and with which report: exactly the table of R180, one fault at most, in
the order of R189; no other instruction can fault, and none is refused (decisions D6, D7, D8, D15). -/
def Obligations.InstructionFaultsAreTheTable : Prop :=
  ∀ (i : Instr) (s : State),
    (∀ f, exec i s = .fault f ↔ FaultOf s f i) ∧ ∀ r, exec i s ≠ .refused r

/-- What makes a `STEP` fault, in the order of R189: the fetch, then the decoder, then the instruction. -/
def StepFault (s : State) (f : Fault) : Prop :=
  (4095 < s.pc.toNat + 1 ∧ f = .memoryOutOfBounds s.pc.toNat) ∨
  (s.pc.toNat + 1 ≤ 4095 ∧ IllegalWord s.wordAtPc ∧ f = .unknownOpcode s.wordAtPc) ∨
  (s.pc.toNat + 1 ≤ 4095 ∧ ∃ i, decodeWord s.wordAtPc = .ok i ∧ FaultOf s f i)

/-- The whole table of R180: what makes each of the seven operations fault.  Of the host's six only
`LOAD_ROM` can (R186, R192). -/
def OperationFault (s : State) (f : Fault) : Op → Prop
  | .step => StepFault s f
  | .loadRom .unreadable => f = .romLoadError
  | .loadRom (.bytes bs) => 3584 < bs.length ∧ f = .romLoadError
  | .reset | .tick | .keyDown _ | .keyUp _ | .setQuirks _ => False

/-- Which of the seven operations faults, exactly when and with which report: the table of R180; none is
refused.  Where the table gives a fault, repeating the operation any number of times leaves the state
exactly as it was and gives that fault again (R187, R190, R192; decisions D6, D7, D8, D13, D14, D15).  That
a fault leaves the state before the operation is how the model writes a fault down (log entry 8). -/
def Obligations.OperationsFaultExactlyByTheTable : Prop :=
  ∀ (o : Op) (s : State),
    (∀ f, operate o s = .fault f ↔ OperationFault s f o) ∧ (∀ r, operate o s ≠ .refused r) ∧
    ∀ f n, OperationFault s f o → afterAll (List.replicate n o) s = s ∧
      operate o (afterAll (List.replicate n o) s) = .fault f

/-- A byte that a block store wrote is what the next fetch reads: self-modifying code is well defined
(R61, marked derived). -/
def Obligations.FetchSeesTheLastStore : Prop :=
  ∀ (s t : State) (x k l : Nibble), s.mem.wf = true → exec (.storeRegs x) s = .next t →
    l.toNat ≤ x.toNat → l.toNat = k.toNat + 1 → t.pc.toNat = s.i.toNat + k.toNat →
      fetchWord t = .ok (s.getV k ++ s.getV l)

/-! ### Invariants -/

/-- The state just after reset meets the invariant, whatever the two open arguments (R37). -/
def Obligations.ResetMeetsTheInvariant : Prop :=
  State.reset.Inv ∧ ∀ (q : Quirks) (j : Bool), (State.initial q j).Inv

/-- From every state that meets it, a step keeps the invariant: memory canonical, PC even and at most
0x1002, every held return address that of a call, no captured key while waiting (R25, R32, R134, each
marked derived there). -/
def Obligations.StepKeepsTheInvariant : Prop :=
  ∀ s t : State, s.Inv → step s = .next t → t.Inv

/-- Each of the seven operations keeps the invariant, from every state that meets it, those that no run
reaches included: `STEP`, and `RESET`, `LOAD_ROM`, `TICK`, `KEY_DOWN`, `KEY_UP`, `SET_QUIRKS` (R10, R191,
R192; R25, R32, R134, each marked derived there). -/
def Obligations.OperationsKeepTheInvariant : Prop :=
  ∀ (o : Op) (s t : State), s.Inv → operate o s = .next t → t.Inv

/-- Every state that any schedule of the host reaches from reset meets the invariant, faults survived on
the way included (R10, R25, R188, R192). -/
def Obligations.EveryScheduleKeepsTheInvariant : Prop :=
  ∀ (os : List Op) (q : Quirks) (j : Bool), (afterAll os (State.initial q j)).Inv

/-! ### What instructions may write -/

/-- Which instructions may write a piece of state other than PC (R20 to R35, R56). -/
def MayWrite : Part → Instr → Prop
  | .regs, i => (∃ x kk, i = .ldImm x kk ∨ i = .addImm x kk ∨ i = .rnd x kk) ∨
      (∃ x y, i = .ldReg x y ∨ i = .orReg x y ∨ i = .andReg x y ∨ i = .xorReg x y ∨ i = .addReg x y ∨
        i = .subReg x y ∨ i = .subnReg x y ∨ i = .shrReg x y ∨ i = .shlReg x y) ∨
      (∃ x y n, i = .drw x y n) ∨ (∃ x, i = .ldFromDt x ∨ i = .ldKey x ∨ i = .loadRegs x)
  | .index, i => (∃ nnn, i = .ldI nnn) ∨
      ∃ x, i = .addI x ∨ i = .ldFont x ∨ i = .storeRegs x ∨ i = .loadRegs x
  | .stack, i => i = .ret ∨ ∃ nnn, i = .call nnn
  | .mem, i => ∃ x, i = .ldBcd x ∨ i = .storeRegs x
  | .disp, i => i = .cls ∨ ∃ x y n, i = .drw x y n
  | .dt, i => ∃ x, i = .ldDt x
  | .st, i => ∃ x, i = .ldSt x
  | .wait, i => ∃ x, i = .ldKey x
  | .draws, i => ∃ x kk, i = .rnd x kk
  | .keys, _ | .quirks, _ | .romLoaded, _ | .jumpVx, _ => False

/-- No instruction writes a piece of state that its rule does not name: in particular memory is written by
LD B and LD [I] alone, the display by CLS and DRW, a timer by its own load, the stack by CALL and RET, and
the key flags, the quirks, `ROM_LOADED` and `Q_JUMP_VX` by none (R14, R23, R26, R28 to R35, R56). -/
def Obligations.InstructionsWriteOnlyWhatTheirRulesName : Prop :=
  ∀ (i : Instr) (s t : State) (p : Part), exec i s = .next t → ¬ MayWrite p i → p.same s t

/-- The general registers an instruction may write in a state: its destination, VF where R22 lists it, and
V0 to VX for the block load. -/
def MayWriteReg (s : State) (r : Nibble) : Instr → Prop
  | .ldImm x _ | .addImm x _ | .ldReg x _ | .rnd x _ | .ldFromDt x => r = x
  | .orReg x _ | .andReg x _ | .xorReg x _ => r = x ∨ (r = 15#4 ∧ s.q.logicResetVf = true)
  | .addReg x _ | .subReg x _ | .subnReg x _ | .shrReg x _ | .shlReg x _ => r = x ∨ r = 15#4
  | .drw _ _ _ => r = 15#4
  | .ldKey x => r = x ∧ s.capt ≠ none
  | .loadRegs x => r.toNat ≤ x.toNat
  | _ => False

/-- VF is written by the nine flag instructions of R22 alone and by an instruction that names it as its
destination; every other register only by an instruction that names it (R20, R21, R22). -/
def Obligations.RegistersWrittenOnlyAsNamed : Prop :=
  ∀ (i : Instr) (s t : State) (r : Nibble), exec i s = .next t → ¬ MayWriteReg s r i →
    t.getV r = s.getV r

/-- The four PC effects of R24: plus 2; plus 4 by a skip alone; a checked target at most 0xFFE by a jump,
call or return alone; no change by LD Vx, K alone. -/
def Obligations.PcMovesOnlyInTheFourWays : Prop :=
  ∀ (i : Instr) (s t : State), exec i s = .next t →
    (t.pc = s.pc + 2#16 ∧ ∀ nnn, i ≠ .jp nnn ∧ i ≠ .jpV0 nnn ∧ i ≠ .call nnn ∧ i ≠ .ret) ∨
    (t.pc = s.pc + 4#16 ∧ ((∃ x kk, i = .seImm x kk ∨ i = .sneImm x kk) ∨
      (∃ x y, i = .seReg x y ∨ i = .sneReg x y) ∨ ∃ x, i = .skp x ∨ i = .sknp x)) ∨
    (t.pc.toNat ≤ 0xFFE ∧ (i = .ret ∨ ∃ nnn, i = .jp nnn ∨ i = .jpV0 nnn ∨ i = .call nnn)) ∨
    (t.pc = s.pc ∧ ∃ x, i = .ldKey x)

/-! ### What a step does not depend on -/

/-- No instruction reads `ST`: two states that differ in it alone step alike, and LD ST, Vx makes them
equal (R31). -/
def Obligations.SoundTimerIsNeverRead : Prop :=
  ∀ (s : State) (b : Byte),
    ((∀ x, fetchInstr s ≠ .ok (.ldSt x)) →
      step (s.setSt b) = mapNext (fun t => t.setSt b) (step s)) ∧
    ((∃ x, fetchInstr s = .ok (.ldSt x)) → step (s.setSt b) = step s)

/-- No instruction reads `ROM_LOADED` and a step does not depend on it (R35). -/
def Obligations.RomLoadedIsNeverRead : Prop :=
  ∀ (s : State) (b : Bool),
    step { s with romLoaded := b } = mapNext (fun t => { t with romLoaded := b }) (step s)

/-- Stack slots at or above `SP` are unobservable: states that differ in them alone step alike, and still
differ in such slots alone (R26; decision D19). -/
def Obligations.DeadStackSlotsAreUnobservable : Prop :=
  ∀ s s' : State, SameButDeadSlots s s' → OutcomesAgree SameButDeadSlots (step s) (step s')

/-! ### Immediate and register arithmetic -/

/-- The word `w` is the instruction `i`: the encoding line of the instruction's rule, at every value of its
operands (R80: general knowledge of the spec's author, log entry 4). -/
def WordIs (w : Nat) (i : Instr) : Prop := decodeWord (BitVec.ofNat 16 w) = .ok i

/-- LD Vx, kk (R101). -/
def Obligations.LoadImmediateWritesVx : Prop :=
  ∀ (x : Nibble) (kk : Byte) (s : State), WordIs (0x6000 + 256 * x.toNat + kk.toNat) (.ldImm x kk) ∧
    ∃ t, exec (.ldImm x kk) s = .next t ∧ t.getV x = kk ∧ t.pc = s.pc + 2#16 ∧
    SameRegsExcept [x] s t ∧ OnlyChanges [.regs] s t

/-- ADD Vx, kk wraps modulo 256 and records no carry: VF is kept unless it is the destination (R102). -/
def Obligations.AddImmediateWrapsWithoutFlag : Prop :=
  ∀ (x : Nibble) (kk : Byte) (s : State), WordIs (0x7000 + 256 * x.toNat + kk.toNat) (.addImm x kk) ∧
    ∃ t, exec (.addImm x kk) s = .next t ∧
    (t.getV x).toNat = ((s.getV x).toNat + kk.toNat) % 256 ∧ t.pc = s.pc + 2#16 ∧
    SameRegsExcept [x] s t ∧ OnlyChanges [.regs] s t

/-- LD Vx, Vy copies and sets no flag under any quirk (R111; general knowledge, decision D1). -/
def Obligations.RegisterCopyKeepsFlag : Prop :=
  ∀ (x y : Nibble) (s : State), WordIs (0x8000 + 256 * x.toNat + 16 * y.toNat) (.ldReg x y) ∧
    ∃ t, exec (.ldReg x y) s = .next t ∧ t.getV x = s.getV y ∧ t.pc = s.pc + 2#16 ∧
    SameRegsExcept [x] s t ∧ OnlyChanges [.regs] s t

/-- What one of OR, AND, XOR leaves: under `Q.logic_reset_vf` VF ends as 0, also when it is the
destination; else the result stands in `V[X]` and no other register changes. -/
def LogicResult (i : Instr) (x : Nibble) (r : Byte) (s : State) : Prop :=
  ∃ t, exec i s = .next t ∧ t.pc = s.pc + 2#16 ∧ OnlyChanges [.regs] s t ∧
    (s.q.logicResetVf = true → t.getV 15#4 = 0#8 ∧ (x ≠ 15#4 → t.getV x = r) ∧
      SameRegsExcept [x, 15#4] s t) ∧
    (s.q.logicResetVf = false → t.getV x = r ∧ SameRegsExcept [x] s t)

/-- OR, AND, XOR Vx, Vy under both settings of `Q.logic_reset_vf` (R103, R104, R105). -/
def Obligations.LogicOperationsResetVfUnderQuirk : Prop :=
  ∀ (x y : Nibble) (s : State),
    let w := 0x8000 + 256 * x.toNat + 16 * y.toNat
    (WordIs (w + 1) (.orReg x y) ∧ LogicResult (.orReg x y) x (s.getV x ||| s.getV y) s) ∧
    (WordIs (w + 2) (.andReg x y) ∧ LogicResult (.andReg x y) x (s.getV x &&& s.getV y) s) ∧
    (WordIs (w + 3) (.xorReg x y) ∧ LogicResult (.xorReg x y) x (s.getV x ^^^ s.getV y) s)

/-- What an instruction with a result and a flag leaves: the flag in VF, also when VF is the destination
(R100, decision D12), else the result in `V[X]`; no other register changes. -/
def FlagResult (i : Instr) (x : Nibble) (r : Nat) (flag : Prop) (s : State) : Prop :=
  ∃ t, exec i s = .next t ∧ t.pc = s.pc + 2#16 ∧ OnlyChanges [.regs] s t ∧
    (x ≠ 15#4 → (t.getV x).toNat = r) ∧ (flag → t.getV 15#4 = 1#8) ∧ (¬ flag → t.getV 15#4 = 0#8) ∧
    SameRegsExcept [x, 15#4] s t

/-- ADD Vx, Vy: the sum modulo 256, VF = 1 exactly on a carry (R106; decision D12). -/
def Obligations.AddRegistersSetsCarry : Prop :=
  ∀ (x y : Nibble) (s : State),
    WordIs (0x8004 + 256 * x.toNat + 16 * y.toNat) (.addReg x y) ∧
    FlagResult (.addReg x y) x (((s.getV x).toNat + (s.getV y).toNat) % 256)
      ((s.getV x).toNat + (s.getV y).toNat > 255) s

/-- SUB and SUBN Vx, Vy: the difference modulo 256, VF = 1 exactly when no borrow occurred, equal operands
included (R107, R110; decision D12). -/
def Obligations.SubtractionsSetNoBorrow : Prop :=
  ∀ (x y : Nibble) (s : State),
    let a := (s.getV x).toNat
    let b := (s.getV y).toNat
    WordIs (0x8005 + 256 * x.toNat + 16 * y.toNat) (.subReg x y) ∧
    WordIs (0x8007 + 256 * x.toNat + 16 * y.toNat) (.subnReg x y) ∧
    FlagResult (.subReg x y) x ((a + 256 - b) % 256) (a ≥ b) s ∧
    FlagResult (.subnReg x y) x ((b + 256 - a) % 256) (b ≥ a) s

/-- SHR and SHL Vx, Vy: the source is VY under `Q.shift_uses_vy`, else VX; VF is the bit shifted out
(R108, R109; decision D12). -/
def Obligations.ShiftsMoveTheBitOutToVf : Prop :=
  ∀ (x y : Nibble) (s : State),
    let src := if s.q.shiftUsesVy = true then (s.getV y).toNat else (s.getV x).toNat
    WordIs (0x8006 + 256 * x.toNat + 16 * y.toNat) (.shrReg x y) ∧
    WordIs (0x800E + 256 * x.toNat + 16 * y.toNat) (.shlReg x y) ∧
    FlagResult (.shrReg x y) x (src / 2) (src % 2 = 1) s ∧
    FlagResult (.shlReg x y) x (src * 2 % 256) (128 ≤ src) s

/-! ### Skips -/

/-- What a skip leaves: PC + 4 if the condition holds, else PC + 2, and nothing else changed. -/
def SkipResult (i : Instr) (c : Prop) (s : State) : Prop :=
  ∃ t, exec i s = .next t ∧ (c → t.pc = s.pc + 4#16) ∧ (¬ c → t.pc = s.pc + 2#16) ∧ OnlyChanges [] s t

/-- The four conditional skips (R121, R122, R123, R124). -/
def Obligations.ConditionalSkips : Prop :=
  ∀ (x y : Nibble) (kk : Byte) (s : State),
    (WordIs (0x3000 + 256 * x.toNat + kk.toNat) (.seImm x kk) ∧
      WordIs (0x4000 + 256 * x.toNat + kk.toNat) (.sneImm x kk) ∧
      WordIs (0x5000 + 256 * x.toNat + 16 * y.toNat) (.seReg x y) ∧
      WordIs (0x9000 + 256 * x.toNat + 16 * y.toNat) (.sneReg x y)) ∧
    SkipResult (.seImm x kk) (s.getV x = kk) s ∧ SkipResult (.sneImm x kk) (s.getV x ≠ kk) s ∧
    SkipResult (.seReg x y) (s.getV x = s.getV y) s ∧ SkipResult (.sneReg x y) (s.getV x ≠ s.getV y) s

/-- SKP and SKNP Vx: the key named by the low nibble of `V[X]` (R160, R161; decisions D10, D11). -/
def Obligations.KeySkipsReadTheLowNibble : Prop :=
  ∀ (x k : Nibble) (s : State), k.toNat = (s.getV x).toNat % 16 →
    WordIs (0xE09E + 256 * x.toNat) (.skp x) ∧ WordIs (0xE0A1 + 256 * x.toNat) (.sknp x) ∧
    SkipResult (.skp x) (s.getKey k = true) s ∧ SkipResult (.sknp x) (s.getKey k = false) s

/-! ### Jump, call, return -/

/-- JP nnn: an even target is taken; 0xFFF is out of bounds; another odd target is misaligned (R131;
decisions D6, D8). -/
def Obligations.JumpChecksItsTarget : Prop :=
  ∀ (nnn : Addr12) (s : State), WordIs (0x1000 + nnn.toNat) (.jp nnn) ∧
    (nnn.toNat % 2 = 0 → ∃ t, exec (.jp nnn) s = .next t ∧ t.pc.toNat = nnn.toNat ∧
      OnlyChanges [] s t) ∧
    (nnn.toNat = 0xFFF → exec (.jp nnn) s = .fault (.memoryOutOfBounds 0xFFF)) ∧
    (nnn.toNat % 2 = 1 → nnn.toNat < 0xFFF → exec (.jp nnn) s = .fault (.misalignedPC nnn.toNat))

/-- JP V0, nnn adds V0, or `V[X]` under `Q_JUMP_VX`, without wrapping, and checks the sum (R130, R132;
decisions D2, D6, D8).  It holds for both values of the open parameter. -/
def Obligations.JumpWithOffsetAddsOneRegister : Prop :=
  ∀ (nnn : Addr12) (r : Nibble) (s : State),
    (s.qJumpVx = false → r = 0#4) → (s.qJumpVx = true → r.toNat = nnn.toNat / 256) →
    let target := nnn.toNat + (s.getV r).toNat
    WordIs (0xB000 + nnn.toNat) (.jpV0 nnn) ∧
    (target ≤ 0xFFE → target % 2 = 0 → ∃ t, exec (.jpV0 nnn) s = .next t ∧ t.pc.toNat = target ∧
      OnlyChanges [] s t) ∧
    (0xFFF ≤ target → exec (.jpV0 nnn) s = .fault (.memoryOutOfBounds target)) ∧
    (target < 0xFFF → target % 2 = 1 → exec (.jpV0 nnn) s = .fault (.misalignedPC target))

/-- CALL nnn: overflow first, then the target's bounds, then its parity; else `PC + 2` goes to the slot at
`SP`, `SP` counts up and PC is the target (R133; decisions D4, D8, D15). -/
def Obligations.CallPushesTheReturnAddress : Prop :=
  ∀ (nnn : Addr12) (s : State), WordIs (0x2000 + nnn.toNat) (.call nnn) ∧
    (s.sp.val = 16 → exec (.call nnn) s = .fault .stackOverflow) ∧
    (s.sp.val < 16 → nnn.toNat = 0xFFF → exec (.call nnn) s = .fault (.memoryOutOfBounds 0xFFF)) ∧
    (s.sp.val < 16 → nnn.toNat < 0xFFF → nnn.toNat % 2 = 1 →
      exec (.call nnn) s = .fault (.misalignedPC nnn.toNat)) ∧
    (s.sp.val < 16 → nnn.toNat % 2 = 0 → ∃ t, exec (.call nnn) s = .next t ∧
      t.pc.toNat = nnn.toNat ∧ t.sp.val = s.sp.val + 1 ∧
      (∀ j : Fin 16, j.val = s.sp.val → t.stack[j] = s.pc + 2#16) ∧
      (∀ j : Fin 16, j.val ≠ s.sp.val → t.stack[j] = s.stack[j]) ∧ OnlyChanges [.stack] s t)

/-- RET: underflow first, then the bounds of the newest return address; else PC is that address, `SP`
counts down and every slot keeps its bits (R134; decisions D6, D15, D19). -/
def Obligations.ReturnPopsTheNewestAddress : Prop :=
  ∀ s : State, WordIs 0x00EE .ret ∧
    (s.sp.val = 0 → exec .ret s = .fault .stackUnderflow) ∧
    ∀ j : Fin 16, j.val + 1 = s.sp.val →
      (0xFFF ≤ s.stack[j].toNat → exec .ret s = .fault (.memoryOutOfBounds s.stack[j].toNat)) ∧
      (s.stack[j].toNat < 0xFFF → ∃ t, exec .ret s = .next t ∧ t.pc = s.stack[j] ∧
        t.sp.val = s.sp.val - 1 ∧ (∀ k : Fin 16, t.stack[k] = s.stack[k]) ∧ OnlyChanges [.stack] s t)

/-- A return undoes a call: from any state the callee reaches with the stack as the call left it, RET goes
to the caller's PC + 2 with the caller's `SP` (R133, R134). -/
def Obligations.ReturnUndoesCall : Prop :=
  ∀ (nnn : Addr12) (s t u : State), s.pc.toNat ≤ 0xFFC → exec (.call nnn) s = .next t →
    u.sp = t.sp → (∀ j : Fin 16, j.val < t.sp.val → u.stack[j] = t.stack[j]) →
      ∃ w, exec .ret u = .next w ∧ w.pc.toNat = s.pc.toNat + 2 ∧ w.sp = s.sp

/-- Calls nest to exactly the capacity: `n` calls succeed while `SP + n` is at most 16, and the one beyond
reports `StackOverflow` (R26, R133, R183; decision D4). -/
def Obligations.CallsNestToSixteen : Prop :=
  ∀ (nnn : Addr12) (s : State) (n : Nat), nnn.toNat % 2 = 0 →
    (s.sp.val + n ≤ 16 → ∃ t, execTimes (.call nnn) n s = .next t ∧ t.sp.val = s.sp.val + n) ∧
    (16 < s.sp.val + n → execTimes (.call nnn) n s = .fault .stackOverflow)

/-- SYS nnn always reports `UnknownOpcode` of its own word (R135; decision D13). -/
def Obligations.SysReportsUnknownOpcode : Prop :=
  ∀ (nnn : Addr12) (s : State),
    (nnn.toNat ≠ 0x0E0 → nnn.toNat ≠ 0x0EE → WordIs nnn.toNat (.sys nnn)) ∧
    exec (.sys nnn) s = .fault (.unknownOpcode (BitVec.ofNat 16 nnn.toNat))

/-- PC points at a jump to itself: every further step leaves the state as it is (R206, marked there
as general knowledge; the end-of-run predicate and what it leaves out are the model's choice, log entry
23). -/
def Obligations.SelfJumpRepeatsForever : Prop :=
  ∀ (s : State) (n : Nat), s.Inv → s.atSelfJump →
    runSchedule (List.replicate n .step) s = .next s

/-! ### Index register -/

/-- LD I, nnn: the upper four bits become 0 (R140). -/
def Obligations.LoadIndexZeroExtends : Prop :=
  ∀ (nnn : Addr12) (s : State), WordIs (0xA000 + nnn.toNat) (.ldI nnn) ∧
    ∃ t, exec (.ldI nnn) s = .next t ∧ t.i.toNat = nnn.toNat ∧ t.pc = s.pc + 2#16 ∧ OnlyChanges [.index] s t

/-- ADD I, Vx wraps modulo 65536 and never writes VF (R141; decision D3). -/
def Obligations.AddIndexWrapsAtSixteenBits : Prop :=
  ∀ (x : Nibble) (s : State), WordIs (0xF01E + 256 * x.toNat) (.addI x) ∧
    ∃ t, exec (.addI x) s = .next t ∧
    t.i.toNat = (s.i.toNat + (s.getV x).toNat) % 65536 ∧ t.pc = s.pc + 2#16 ∧ OnlyChanges [.index] s t

/-- LD F, Vx: the glyph of the low nibble, at the spec's font base 0x000 (R170; decision D5, log entry 5). -/
def Obligations.FontAddressOfTheLowNibble : Prop :=
  ∀ (x : Nibble) (s : State), WordIs (0xF029 + 256 * x.toNat) (.ldFont x) ∧
    ∃ t, exec (.ldFont x) s = .next t ∧
    t.i.toNat = 5 * ((s.getV x).toNat % 16) ∧ t.pc = s.pc + 2#16 ∧ OnlyChanges [.index] s t

/-! ### Random and display -/

/-- RND Vx, kk stores the next drawn byte, a free value, ANDed with the mask; so every bit outside the mask
is 0; and one draw is consumed (R150; decision D18, log entry 3).  Nothing is said of the byte. -/
def Obligations.RandomIsMaskedDraw : Prop :=
  ∀ (x : Nibble) (kk : Byte) (s : State), WordIs (0xC000 + 256 * x.toNat + kk.toNat) (.rnd x kk) ∧
    ∃ t, exec (.rnd x kk) s = .next t ∧
    t.getV x = Config.drawByte s.rngDraws &&& kk ∧ t.getV x &&& ~~~kk = 0#8 ∧
    t.rngDraws = s.rngDraws + 1 ∧ t.pc = s.pc + 2#16 ∧ SameRegsExcept [x] s t ∧
    OnlyChanges [.regs, .draws] s t

/-- Bit `7 - col` of sprite row `row` at `I`, drawn from (VX, VY), falls on the cell `(px, py)` (R151;
decision D26). -/
def SpriteLights (s : State) (x y n : Nibble) (px py : Nat) : Prop :=
  ∃ row col, row < n.toNat ∧ col < 8 ∧ (s.mem.read (s.i.toNat + row)).getLsbD (7 - col) = true ∧
    px % 64 = ((s.getV x).toNat + col) % 64 ∧ py % 32 = ((s.getV y).toNat + row) % 32

/-- DRW Vx, Vy, n: bounds of the whole sprite first; then every cell a sprite bit falls on is turned over,
every other cell is kept, and VF says whether one of the cells turned over was lit (R151; decisions D6,
D22, D26). -/
def Obligations.DrawXorsTheSprite : Prop :=
  ∀ (x y n : Nibble) (s : State),
    WordIs (0xD000 + 256 * x.toNat + 16 * y.toNat + n.toNat) (.drw x y n) ∧
    (0 < n.toNat → 4095 < s.i.toNat + n.toNat - 1 →
      exec (.drw x y n) s = .fault (.memoryOutOfBounds (max s.i.toNat 4096))) ∧
    (n.toNat = 0 ∨ s.i.toNat + n.toNat - 1 ≤ 4095 → ∃ t, exec (.drw x y n) s = .next t ∧
      (∀ px py, SpriteLights s x y n px py → t.disp.pixel px py = !s.disp.pixel px py) ∧
      (∀ px py, ¬ SpriteLights s x y n px py → t.disp.pixel px py = s.disp.pixel px py) ∧
      ((∃ px py, SpriteLights s x y n px py ∧ s.disp.pixel px py = true) → t.getV 15#4 = 1#8) ∧
      ((¬ ∃ px py, SpriteLights s x y n px py ∧ s.disp.pixel px py = true) → t.getV 15#4 = 0#8) ∧
      t.pc = s.pc + 2#16 ∧ SameRegsExcept [15#4] s t ∧ OnlyChanges [.regs, .disp] s t)

/-- CLS: every cell 0, VF left alone (R152; decision D23). -/
def Obligations.ClearScreenBlanksTheDisplay : Prop :=
  ∀ s : State, WordIs 0x00E0 .cls ∧ ∃ t, exec .cls s = .next t ∧ (∀ x y, t.disp.pixel x y = false) ∧
    t.pc = s.pc + 2#16 ∧ OnlyChanges [.disp] s t

/-- The host reads cell `(x, y)` at byte `64 * y + x` of 2048 bytes, each 0 or 1 (R28). -/
def Obligations.DisplayBytesAreRowMajor : Prop :=
  ∀ s : State, s.displayBytes.length = 2048 ∧ ∀ x y, x < 64 → y < 32 →
    s.displayBytes[64 * y + x]? = some (if s.disp.pixel x y = true then 1#8 else 0#8)

/-- The `drew` result of a successful step is 1 exactly for DRW (R39; decision D24). -/
def Obligations.DrewExactlyForDraw : Prop :=
  ∀ s t : State, step s = .next t → (s.drew = true ↔ ∃ x y n, fetchInstr s = .ok (.drw x y n))

/-! ### Keypad and timers -/

/-- LD Vx, DT reads the delay timer without changing it (R162). -/
def Obligations.ReadDelayTimer : Prop :=
  ∀ (x : Nibble) (s : State), WordIs (0xF007 + 256 * x.toNat) (.ldFromDt x) ∧
    ∃ t, exec (.ldFromDt x) s = .next t ∧ t.getV x = s.dt ∧
    t.pc = s.pc + 2#16 ∧ SameRegsExcept [x] s t ∧ OnlyChanges [.regs] s t

/-- LD DT, Vx and LD ST, Vx set their own timer and leave the other alone; the tone line follows `ST` at
once (R163, R164). -/
def Obligations.SetTimersIndependently : Prop :=
  ∀ (x : Nibble) (s : State),
    WordIs (0xF015 + 256 * x.toNat) (.ldDt x) ∧ WordIs (0xF018 + 256 * x.toNat) (.ldSt x) ∧
    (∃ t, exec (.ldDt x) s = .next t ∧ t.dt = s.getV x ∧ t.pc = s.pc + 2#16 ∧ OnlyChanges [.dt] s t) ∧
    (∃ t, exec (.ldSt x) s = .next t ∧ t.st = s.getV x ∧ (t.toneOn = true ↔ 0 < (s.getV x).toNat) ∧
      t.pc = s.pc + 2#16 ∧ OnlyChanges [.st] s t)

/-- LD Vx, K: a captured key completes it; while waiting nothing at all changes; else the wait begins and
PC stays (R165; decision D9). -/
def Obligations.WaitForKeyThreeBranches : Prop :=
  ∀ (x : Nibble) (s : State), WordIs (0xF00A + 256 * x.toNat) (.ldKey x) ∧
    (∀ k, s.capt = some k → ∃ t, exec (.ldKey x) s = .next t ∧ (t.getV x).toNat = k.toNat ∧
      t.capt = none ∧ t.await = s.await ∧ t.pc = s.pc + 2#16 ∧ SameRegsExcept [x] s t ∧
      OnlyChanges [.regs, .wait] s t) ∧
    (s.capt = none → s.await = true → exec (.ldKey x) s = .next s) ∧
    (s.capt = none → s.await = false → ∃ t, exec (.ldKey x) s = .next t ∧ t.await = true ∧
      t.capt = none ∧ t.pc = s.pc ∧ OnlyChanges [.wait] s t)

/-- A host operation on the keypad or the timers. -/
def IsEvent : Op → Prop
  | .tick | .keyDown _ | .keyUp _ => True
  | _ => False

/-- The wait-for-key protocol: at LD Vx, K any number of steps, at least one, changes no register and not
PC; after a key-down of `k`, whatever key and timer events follow, exactly one step puts `k` in VX and
moves PC by 2: the first key-down is the one captured (R165, R194; decision D9). -/
def Obligations.WaitEndsWithTheFirstKeyDown : Prop :=
  ∀ (x k : Nibble) (s : State) (n : Nat) (es : List Op),
    fetchInstr s = .ok (.ldKey x) → s.capt = none → (∀ e ∈ es, IsEvent e) →
      (∃ w, runSchedule (List.replicate (n + 1) .step) s = .next w ∧ w.await = true ∧ w.pc = s.pc ∧
        OnlyChanges [.wait] s w) ∧
      ∃ t, runSchedule (List.replicate (n + 1) .step ++ [.keyDown k] ++ es ++ [.step]) s = .next t ∧
        (t.getV x).toNat = k.toNat ∧ t.pc = s.pc + 2#16 ∧ t.await = false ∧ t.capt = none ∧
        SameRegsExcept [x] s t

/-- `N` ticks take each timer from `V` to `max(0, V - N)` and change nothing else (R193). -/
def Obligations.TicksCountBothTimersDown : Prop :=
  ∀ (s : State) (n : Nat),
    let t := afterAll (List.replicate n .tick) s
    t.dt.toNat = s.dt.toNat - n ∧ t.st.toNat = s.st.toNat - n ∧ t.pc = s.pc ∧
      OnlyChanges [.dt, .st] s t

/-- `KEY_DOWN(k)`: the flag is set; a wait ends and captures `k`; else the wait state is kept, a filled
capture included (R194; decision D9). -/
def Obligations.KeyDownEndsAWait : Prop :=
  ∀ (k : Nibble) (s : State), ∃ t, operate (.keyDown k) s = .next t ∧
    t.getKey k = true ∧ (∀ j, j ≠ k → t.getKey j = s.getKey j) ∧
    (s.await = true → t.await = false ∧ t.capt = some k) ∧
    (s.await = false → t.await = false ∧ t.capt = s.capt) ∧
    t.pc = s.pc ∧ OnlyChanges [.keys, .wait] s t

/-- `KEY_UP(k)` clears the flag and nothing else: it does not end a wait (R195). -/
def Obligations.KeyUpClearsOneFlag : Prop :=
  ∀ (k : Nibble) (s : State), ∃ t, operate (.keyUp k) s = .next t ∧
    t.getKey k = false ∧ (∀ j, j ≠ k → t.getKey j = s.getKey j) ∧ t.pc = s.pc ∧
    OnlyChanges [.keys] s t

/-- `SET_QUIRKS(q)` writes `Q` and nothing else (R196). -/
def Obligations.SetQuirksWritesOnlyQuirks : Prop :=
  ∀ (q : Quirks) (s : State), ∃ t, operate (.setQuirks q) s = .next t ∧ t.q = q ∧ t.pc = s.pc ∧
    OnlyChanges [.quirks] s t

/-! ### Memory instructions -/

/-- LD B, Vx: all three addresses are checked first; then hundreds, tens, ones in ascending order; `I` is
kept under every quirk (R171; decisions D6, D25). -/
def Obligations.BcdStoreWritesThreeDigits : Prop :=
  ∀ (x : Nibble) (s : State), WordIs (0xF033 + 256 * x.toNat) (.ldBcd x) ∧
    (4095 < s.i.toNat + 2 →
      exec (.ldBcd x) s = .fault (.memoryOutOfBounds (max s.i.toNat 4096))) ∧
    (s.mem.wf = true → s.i.toNat + 2 ≤ 4095 → ∃ t, exec (.ldBcd x) s = .next t ∧
      (t.mem.read (dataBase s)).toNat = (s.getV x).toNat / 100 ∧
      (t.mem.read (dataBase s + 1)).toNat = (s.getV x).toNat / 10 % 10 ∧
      (t.mem.read (dataBase s + 2)).toNat = (s.getV x).toNat % 10 ∧
      SameMemOutside (dataBase s) 3 s t ∧ t.pc = s.pc + 2#16 ∧ OnlyChanges [.mem] s t)

/-- `I` after a block transfer of V0 to VX (R172, R173). -/
def IndexAfterBlock (x : Nibble) (s t : State) : Prop :=
  (s.q.blockIncrI = true → t.i.toNat = s.i.toNat + x.toNat + 1) ∧
  (s.q.blockIncrI = false → t.i = s.i)

/-- LD [I], Vx: the whole block is checked first; then V0 to VX stand at `I` to `I + X`, no other byte
changes, and `I` follows `Q.block_incr_i` (R172; decisions D6, D7). -/
def Obligations.BlockStoreWritesV0ToVx : Prop :=
  ∀ (x : Nibble) (s : State), WordIs (0xF055 + 256 * x.toNat) (.storeRegs x) ∧
    (4095 < s.i.toNat + x.toNat →
      exec (.storeRegs x) s = .fault (.memoryOutOfBounds (max s.i.toNat 4096))) ∧
    (s.mem.wf = true → s.i.toNat + x.toNat ≤ 4095 → ∃ t, exec (.storeRegs x) s = .next t ∧
      (∀ k : Nibble, k.toNat ≤ x.toNat → t.mem.read (dataBase s + k.toNat) = s.getV k) ∧
      SameMemOutside (dataBase s) (x.toNat + 1) s t ∧ IndexAfterBlock x s t ∧ t.pc = s.pc + 2#16 ∧
      OnlyChanges [.mem, .index] s t)

/-- LD Vx, [I]: the whole block is checked first; then V0 to VX hold the bytes at `I` to `I + X`, the
registers above X and all of memory are kept, and `I` follows `Q.block_incr_i` (R173; decisions
D6, D7). -/
def Obligations.BlockLoadReadsV0ToVx : Prop :=
  ∀ (x : Nibble) (s : State), WordIs (0xF065 + 256 * x.toNat) (.loadRegs x) ∧
    (4095 < s.i.toNat + x.toNat →
      exec (.loadRegs x) s = .fault (.memoryOutOfBounds (max s.i.toNat 4096))) ∧
    (s.i.toNat + x.toNat ≤ 4095 → ∃ t, exec (.loadRegs x) s = .next t ∧
      (∀ k : Nibble, k.toNat ≤ x.toNat → t.getV k = s.mem.read (dataBase s + k.toNat)) ∧
      (∀ k : Nibble, x.toNat < k.toNat → t.getV k = s.getV k) ∧ IndexAfterBlock x s t ∧
      t.pc = s.pc + 2#16 ∧ OnlyChanges [.regs, .index] s t)

/-! ### Reset, load, boot -/

/-- `LOAD_ROM`: at most 3584 bytes go verbatim to 0x200 and on, every other byte is kept, `ROM_LOADED` is
set and nothing else changes; an unreadable or longer ROM is reported and nothing changes (R65). -/
def Obligations.LoadRomCopiesVerbatim : Prop :=
  ∀ (bs : List Byte) (s : State),
    (s.mem.wf = true → bs.length ≤ 3584 → ∃ t, operate (.loadRom (.bytes bs)) s = .next t ∧
      (∀ j (h : j < bs.length), t.mem.read (0x200 + j) = bs[j]) ∧
      SameMemOutside 0x200 bs.length s t ∧ t.romLoaded = true ∧ t.pc = s.pc ∧
      OnlyChanges [.mem, .romLoaded] s t) ∧
    (3584 < bs.length → operate (.loadRom (.bytes bs)) s = .fault .romLoadError ∧
      after (.loadRom (.bytes bs)) s = s) ∧
    (operate (.loadRom .unreadable) s = .fault .romLoadError ∧ after (.loadRom .unreadable) s = s)

/-- `RESET` from any state at all: the table of R37, with the font at 0x000 to 0x04F and zero elsewhere;
`Q`, `Q_JUMP_VX` and the random source are not touched (R210, R212; decisions D5, D16, D17, D18). -/
def Obligations.ResetGivesTheTable : Prop :=
  ∀ s : State, ∃ t, operate .reset s = .next t ∧
    (∀ r, t.getV r = 0#8) ∧ t.i = 0#16 ∧ t.pc = 0x200#16 ∧ t.sp.val = 0 ∧
    (∀ j : Fin 16, t.stack[j] = 0#16) ∧ (∀ x y, t.disp.pixel x y = false) ∧ t.dt = 0#8 ∧ t.st = 0#8 ∧
    (∀ k, t.getKey k = false) ∧ t.await = false ∧ t.capt = none ∧ t.romLoaded = false ∧
    (∀ a, 0x50 ≤ a → t.mem.read a = 0#8) ∧ t.mem.readBytes 0x000 80 =
      [0xF0, 0x90, 0x90, 0x90, 0xF0] ++ [0x20, 0x60, 0x20, 0x20, 0x70] ++
      [0xF0, 0x10, 0xF0, 0x80, 0xF0] ++ [0xF0, 0x10, 0xF0, 0x10, 0xF0] ++
      [0x90, 0x90, 0xF0, 0x10, 0x10] ++ [0xF0, 0x80, 0xF0, 0x10, 0xF0] ++
      [0xF0, 0x80, 0xF0, 0x90, 0xF0] ++ [0xF0, 0x10, 0x20, 0x40, 0x40] ++
      [0xF0, 0x90, 0xF0, 0x90, 0xF0] ++ [0xF0, 0x90, 0xF0, 0x10, 0xF0] ++
      [0xF0, 0x90, 0xF0, 0x90, 0x90] ++ [0xE0, 0x90, 0xE0, 0x90, 0xE0] ++
      [0xF0, 0x80, 0x80, 0x80, 0xF0] ++ [0xE0, 0x90, 0x90, 0x90, 0xE0] ++
      [0xF0, 0x80, 0xF0, 0x80, 0xF0] ++ [0xF0, 0x80, 0xF0, 0x80, 0x80] ∧
    t.q = s.q ∧ t.qJumpVx = s.qJumpVx ∧ t.rngDraws = s.rngDraws

/-- The boot sequence of R214: after `RESET` and `LOAD_ROM` the first fetch reads the ROM's first word at
0x200, with the registers still zero; without a ROM the first step reports `UnknownOpcode(0x0000)`. -/
def Obligations.BootFetchesTheRom : Prop :=
  ∀ (s : State) (hi lo : Byte) (rest : List Byte), rest.length ≤ 3582 →
    (∃ t, runSchedule [.reset, .loadRom (.bytes (hi :: lo :: rest))] s = .next t ∧
      fetchWord t = .ok (hi ++ lo) ∧ t.pc = 0x200#16 ∧ t.romLoaded = true ∧ (∀ r, t.getV r = 0#8)) ∧
    runSchedule [.reset, .step] s = .fault (.unknownOpcode 0x0000#16)
end

