-- ==== Sys2Proof/Laws/Decode.lean ====
section
/-! SUPPORT. The fields of an encoded word, format by format (30_encoding.md R76, R77), and the byte order
of a word (R57). -/

namespace Sys2Proof

/-! ### Bytes of a word -/

@[simp] theorem wordOfBytes_high_low (op : Word) : wordOfBytes (highByte op) (lowByte op) = op := by
  refine BitVec.eq_of_getLsbD_eq fun k hk => ?_
  simp only [wordOfBytes, highByte, lowByte, BitVec.getLsbD_append, BitVec.getLsbD_extractLsb']
  split
  · simp [*]
  · rw [show 8 + (k - 8) = k from by omega]; simp; omega

theorem highByte_wordOfBytes (hi lo : Byte) : highByte (wordOfBytes hi lo) = hi := by
  refine BitVec.eq_of_getLsbD_eq fun k hk => ?_
  simp only [wordOfBytes, highByte, BitVec.getLsbD_append, BitVec.getLsbD_extractLsb']
  simp [hk]

theorem lowByte_wordOfBytes (hi lo : Byte) : lowByte (wordOfBytes hi lo) = lo := by
  refine BitVec.eq_of_getLsbD_eq fun k hk => ?_
  simp only [wordOfBytes, lowByte, BitVec.getLsbD_append, BitVec.getLsbD_extractLsb']
  simp [hk]

/-! ### Fields of each format -/

theorem fieldF_encodeNNN (m : Word) (a : Addr12) : fieldF (encodeNNN m a) = fieldF m := by
  ext k hk; interval_cases k <;> simp [fieldF, encodeNNN]

theorem fieldNNN_encodeNNN (m : Word) (a : Addr12) : fieldNNN (encodeNNN m a) = fieldNNN m ||| a := by
  ext k hk; interval_cases k <;> simp [fieldNNN, encodeNNN]

theorem fieldF_encodeXKK (m : Word) (x : Nibble) (b : Byte) :
    fieldF (encodeXKK m x b) = fieldF m := by
  ext k hk; interval_cases k <;> simp [fieldF, encodeXKK]

theorem fieldX_encodeXKK (m : Word) (x : Nibble) (b : Byte) :
    fieldX (encodeXKK m x b) = fieldX m ||| x := by
  ext k hk; interval_cases k <;> simp [fieldX, encodeXKK]

theorem fieldKK_encodeXKK (m : Word) (x : Nibble) (b : Byte) :
    fieldKK (encodeXKK m x b) = fieldKK m ||| b := by
  ext k hk; interval_cases k <;> simp [fieldKK, encodeXKK]

theorem fieldF_encodeXYN (m : Word) (x y n : Nibble) : fieldF (encodeXYN m x y n) = fieldF m := by
  ext k hk; interval_cases k <;> simp [fieldF, encodeXYN]

theorem fieldX_encodeXYN (m : Word) (x y n : Nibble) :
    fieldX (encodeXYN m x y n) = fieldX m ||| x := by
  ext k hk; interval_cases k <;> simp [fieldX, encodeXYN]

theorem fieldY_encodeXYN (m : Word) (x y n : Nibble) :
    fieldY (encodeXYN m x y n) = fieldY m ||| y := by
  ext k hk; interval_cases k <;> simp [fieldY, encodeXYN]

theorem fieldN_encodeXYN (m : Word) (x y n : Nibble) :
    fieldN (encodeXYN m x y n) = fieldN m ||| n := by
  ext k hk; interval_cases k <;> simp [fieldN, encodeXYN]

theorem fieldF_encodeXY (m : Word) (x y : Nibble) : fieldF (encodeXY m x y) = fieldF m := by
  ext k hk; interval_cases k <;> simp [fieldF, encodeXY]

theorem fieldX_encodeXY (m : Word) (x y : Nibble) : fieldX (encodeXY m x y) = fieldX m ||| x := by
  ext k hk; interval_cases k <;> simp [fieldX, encodeXY]

theorem fieldY_encodeXY (m : Word) (x y : Nibble) : fieldY (encodeXY m x y) = fieldY m ||| y := by
  ext k hk; interval_cases k <;> simp [fieldY, encodeXY]

theorem fieldN_encodeXY (m : Word) (x y : Nibble) : fieldN (encodeXY m x y) = fieldN m := by
  ext k hk; interval_cases k <;> simp [fieldN, encodeXY]

theorem fieldF_encodeX (m : Word) (x : Nibble) : fieldF (encodeX m x) = fieldF m := by
  ext k hk; interval_cases k <;> simp [fieldF, encodeX]

theorem fieldX_encodeX (m : Word) (x : Nibble) : fieldX (encodeX m x) = fieldX m ||| x := by
  ext k hk; interval_cases k <;> simp [fieldX, encodeX]

theorem fieldKK_encodeX (m : Word) (x : Nibble) : fieldKK (encodeX m x) = fieldKK m := by
  ext k hk; interval_cases k <;> simp [fieldKK, encodeX]

/-! ### Fields of a word given as a number -/

theorem fieldF_ofNat (w : Nat) : (fieldF (BitVec.ofNat 16 w)).toNat = w / 4096 % 16 := by
  simp [fieldF, BitVec.extractLsb'_toNat, Nat.shiftRight_eq_div_pow]; omega

theorem fieldX_ofNat (w : Nat) : (fieldX (BitVec.ofNat 16 w)).toNat = w / 256 % 16 := by
  simp [fieldX, BitVec.extractLsb'_toNat, Nat.shiftRight_eq_div_pow]; omega

theorem fieldY_ofNat (w : Nat) : (fieldY (BitVec.ofNat 16 w)).toNat = w / 16 % 16 := by
  simp [fieldY, BitVec.extractLsb'_toNat, Nat.shiftRight_eq_div_pow]; omega

theorem fieldN_ofNat (w : Nat) : (fieldN (BitVec.ofNat 16 w)).toNat = w % 16 := by
  simp [fieldN, BitVec.extractLsb'_toNat]

theorem fieldKK_ofNat (w : Nat) : (fieldKK (BitVec.ofNat 16 w)).toNat = w % 256 := by
  simp [fieldKK, BitVec.extractLsb'_toNat]

theorem fieldNNN_ofNat (w : Nat) : (fieldNNN (BitVec.ofNat 16 w)).toNat = w % 4096 := by
  simp [fieldNNN, BitVec.extractLsb'_toNat]

/-! ### Putting a word together again -/

/-- Words with the same family nibble have the same upper four bits. -/
theorem getLsbD_of_fieldF {op m : Word} (h : fieldF op = fieldF m) {j : Nat} (hj : j < 4) :
    op.getLsbD (12 + j) = m.getLsbD (12 + j) := by
  have := congrArg (·.getLsbD j) h
  simpa [fieldF, hj] using this

theorem getLsbD_of_fieldNNN {m : Word} (h : fieldNNN m = 0#12) {j : Nat} (hj : j < 12) :
    m.getLsbD j = false := by
  have := congrArg (·.getLsbD j) h
  simpa [fieldNNN, hj] using this

/-- A word of format `NNN` is its family nibble with its own field. -/
theorem encodeNNN_fields {op m : Word} (hF : fieldF op = fieldF m) (hm : fieldNNN m = 0#12) :
    encodeNNN m (fieldNNN op) = op := by
  refine BitVec.eq_of_getLsbD_eq fun k hk => ?_
  have b0 := getLsbD_of_fieldF hF (j := 0) (by omega)
  have b1 := getLsbD_of_fieldF hF (j := 1) (by omega)
  have b2 := getLsbD_of_fieldF hF (j := 2) (by omega)
  have b3 := getLsbD_of_fieldF hF (j := 3) (by omega)
  have z := getLsbD_of_fieldNNN hm (j := k)
  simp at b0 b1 b2 b3
  interval_cases k <;> simp_all [encodeNNN, fieldNNN]

/-- A word of format `XKK` is its family nibble with its own fields. -/
theorem encodeXKK_fields {op m : Word} (hF : fieldF op = fieldF m) (hm : fieldNNN m = 0#12) :
    encodeXKK m (fieldX op) (fieldKK op) = op := by
  refine BitVec.eq_of_getLsbD_eq fun k hk => ?_
  have b0 := getLsbD_of_fieldF hF (j := 0) (by omega)
  have b1 := getLsbD_of_fieldF hF (j := 1) (by omega)
  have b2 := getLsbD_of_fieldF hF (j := 2) (by omega)
  have b3 := getLsbD_of_fieldF hF (j := 3) (by omega)
  have z := getLsbD_of_fieldNNN hm (j := k)
  simp at b0 b1 b2 b3
  interval_cases k <;> simp_all [encodeXKK, fieldX, fieldKK]

/-- A word of format `XYN` is its family nibble with its own fields. -/
theorem encodeXYN_fields {op m : Word} (hF : fieldF op = fieldF m) (hm : fieldNNN m = 0#12) :
    encodeXYN m (fieldX op) (fieldY op) (fieldN op) = op := by
  refine BitVec.eq_of_getLsbD_eq fun k hk => ?_
  have b0 := getLsbD_of_fieldF hF (j := 0) (by omega)
  have b1 := getLsbD_of_fieldF hF (j := 1) (by omega)
  have b2 := getLsbD_of_fieldF hF (j := 2) (by omega)
  have b3 := getLsbD_of_fieldF hF (j := 3) (by omega)
  have z := getLsbD_of_fieldNNN hm (j := k)
  simp at b0 b1 b2 b3
  interval_cases k <;> simp_all [encodeXYN, fieldX, fieldY, fieldN]

/-- A word of format `XY` is its family and low nibbles with its own fields. -/
theorem encodeXY_fields {op m : Word} (hF : fieldF op = fieldF m) (hN : fieldN op = fieldN m)
    (hm : m.extractLsb' 4 8 = 0#8) : encodeXY m (fieldX op) (fieldY op) = op := by
  have hz (j) (hj : j < 8) : m.getLsbD (4 + j) = false := by
    have := congrArg (·.getLsbD j) hm
    simpa [hj] using this
  have hn (j) (hj : j < 4) : op.getLsbD j = m.getLsbD j := by
    have := congrArg (·.getLsbD j) hN
    simpa [fieldN, hj] using this
  refine BitVec.eq_of_getLsbD_eq fun k hk => ?_
  have b0 := getLsbD_of_fieldF hF (j := 0) (by omega)
  have b1 := getLsbD_of_fieldF hF (j := 1) (by omega)
  have b2 := getLsbD_of_fieldF hF (j := 2) (by omega)
  have b3 := getLsbD_of_fieldF hF (j := 3) (by omega)
  have c := hn k
  have z := hz (k - 4)
  simp at b0 b1 b2 b3
  interval_cases k <;> simp_all [encodeXY, fieldX, fieldY]

/-- A word of format `X` is its family nibble and low byte with its own field. -/
theorem encodeX_fields {op m : Word} (hF : fieldF op = fieldF m) (hK : fieldKK op = fieldKK m)
    (hm : fieldX m = 0#4) : encodeX m (fieldX op) = op := by
  have hz (j) (hj : j < 4) : m.getLsbD (8 + j) = false := by
    have := congrArg (·.getLsbD j) hm
    simpa [fieldX, hj] using this
  have hk' (j) (hj : j < 8) : op.getLsbD j = m.getLsbD j := by
    have := congrArg (·.getLsbD j) hK
    simpa [fieldKK, hj] using this
  refine BitVec.eq_of_getLsbD_eq fun k hk => ?_
  have b0 := getLsbD_of_fieldF hF (j := 0) (by omega)
  have b1 := getLsbD_of_fieldF hF (j := 1) (by omega)
  have b2 := getLsbD_of_fieldF hF (j := 2) (by omega)
  have b3 := getLsbD_of_fieldF hF (j := 3) (by omega)
  have c := hk' k
  have z := hz (k - 8)
  simp at b0 b1 b2 b3
  interval_cases k <;> simp_all [encodeX, fieldX]

end Sys2Proof
end

