-- ==== Sys2Proof/Laws/State.lean ====
section
/-! SUPPORT. One lemma per field per update of the state, each true by computation, so that no proof
unfolds a record update. -/

namespace Sys2Proof.Machine

/-! ### `setV` -/

@[simp] theorem State.setV_v (s : State) (x : Nibble) (b : Byte) :
    (s.setV x b).v = s.v.set x.toNat b x.lt_sixteen := rfl
@[simp] theorem State.setV_i (s : State) (x : Nibble) (b : Byte) :
    (s.setV x b).i = s.i := rfl
@[simp] theorem State.setV_pc (s : State) (x : Nibble) (b : Byte) :
    (s.setV x b).pc = s.pc := rfl
@[simp] theorem State.setV_sp (s : State) (x : Nibble) (b : Byte) :
    (s.setV x b).sp = s.sp := rfl
@[simp] theorem State.setV_stack (s : State) (x : Nibble) (b : Byte) :
    (s.setV x b).stack = s.stack := rfl
@[simp] theorem State.setV_mem (s : State) (x : Nibble) (b : Byte) :
    (s.setV x b).mem = s.mem := rfl
@[simp] theorem State.setV_disp (s : State) (x : Nibble) (b : Byte) :
    (s.setV x b).disp = s.disp := rfl
@[simp] theorem State.setV_dt (s : State) (x : Nibble) (b : Byte) :
    (s.setV x b).dt = s.dt := rfl
@[simp] theorem State.setV_st (s : State) (x : Nibble) (b : Byte) :
    (s.setV x b).st = s.st := rfl
@[simp] theorem State.setV_key (s : State) (x : Nibble) (b : Byte) :
    (s.setV x b).key = s.key := rfl
@[simp] theorem State.setV_await (s : State) (x : Nibble) (b : Byte) :
    (s.setV x b).await = s.await := rfl
@[simp] theorem State.setV_capt (s : State) (x : Nibble) (b : Byte) :
    (s.setV x b).capt = s.capt := rfl
@[simp] theorem State.setV_q (s : State) (x : Nibble) (b : Byte) :
    (s.setV x b).q = s.q := rfl
@[simp] theorem State.setV_romLoaded (s : State) (x : Nibble) (b : Byte) :
    (s.setV x b).romLoaded = s.romLoaded := rfl
@[simp] theorem State.setV_qJumpVx (s : State) (x : Nibble) (b : Byte) :
    (s.setV x b).qJumpVx = s.qJumpVx := rfl
@[simp] theorem State.setV_rngDraws (s : State) (x : Nibble) (b : Byte) :
    (s.setV x b).rngDraws = s.rngDraws := rfl
@[simp] theorem State.setV_getKey (s : State) (x : Nibble) (b : Byte) (k' : Nibble) :
    (s.setV x b).getKey k' = s.getKey k' := rfl

/-! ### `setVF` -/

@[simp] theorem State.setVF_v (s : State) (f : Bool) :
    (s.setVF f).v = s.v.set 15 (if f then 1#8 else 0#8) := rfl
@[simp] theorem State.setVF_i (s : State) (f : Bool) :
    (s.setVF f).i = s.i := rfl
@[simp] theorem State.setVF_pc (s : State) (f : Bool) :
    (s.setVF f).pc = s.pc := rfl
@[simp] theorem State.setVF_sp (s : State) (f : Bool) :
    (s.setVF f).sp = s.sp := rfl
@[simp] theorem State.setVF_stack (s : State) (f : Bool) :
    (s.setVF f).stack = s.stack := rfl
@[simp] theorem State.setVF_mem (s : State) (f : Bool) :
    (s.setVF f).mem = s.mem := rfl
@[simp] theorem State.setVF_disp (s : State) (f : Bool) :
    (s.setVF f).disp = s.disp := rfl
@[simp] theorem State.setVF_dt (s : State) (f : Bool) :
    (s.setVF f).dt = s.dt := rfl
@[simp] theorem State.setVF_st (s : State) (f : Bool) :
    (s.setVF f).st = s.st := rfl
@[simp] theorem State.setVF_key (s : State) (f : Bool) :
    (s.setVF f).key = s.key := rfl
@[simp] theorem State.setVF_await (s : State) (f : Bool) :
    (s.setVF f).await = s.await := rfl
@[simp] theorem State.setVF_capt (s : State) (f : Bool) :
    (s.setVF f).capt = s.capt := rfl
@[simp] theorem State.setVF_q (s : State) (f : Bool) :
    (s.setVF f).q = s.q := rfl
@[simp] theorem State.setVF_romLoaded (s : State) (f : Bool) :
    (s.setVF f).romLoaded = s.romLoaded := rfl
@[simp] theorem State.setVF_qJumpVx (s : State) (f : Bool) :
    (s.setVF f).qJumpVx = s.qJumpVx := rfl
@[simp] theorem State.setVF_rngDraws (s : State) (f : Bool) :
    (s.setVF f).rngDraws = s.rngDraws := rfl
@[simp] theorem State.setVF_getKey (s : State) (f : Bool) (k' : Nibble) :
    (s.setVF f).getKey k' = s.getKey k' := rfl

/-! ### `setRegs` -/

@[simp] theorem State.setRegs_v (s : State) (r : Regs) :
    (s.setRegs r).v = r := rfl
@[simp] theorem State.setRegs_i (s : State) (r : Regs) :
    (s.setRegs r).i = s.i := rfl
@[simp] theorem State.setRegs_pc (s : State) (r : Regs) :
    (s.setRegs r).pc = s.pc := rfl
@[simp] theorem State.setRegs_sp (s : State) (r : Regs) :
    (s.setRegs r).sp = s.sp := rfl
@[simp] theorem State.setRegs_stack (s : State) (r : Regs) :
    (s.setRegs r).stack = s.stack := rfl
@[simp] theorem State.setRegs_mem (s : State) (r : Regs) :
    (s.setRegs r).mem = s.mem := rfl
@[simp] theorem State.setRegs_disp (s : State) (r : Regs) :
    (s.setRegs r).disp = s.disp := rfl
@[simp] theorem State.setRegs_dt (s : State) (r : Regs) :
    (s.setRegs r).dt = s.dt := rfl
@[simp] theorem State.setRegs_st (s : State) (r : Regs) :
    (s.setRegs r).st = s.st := rfl
@[simp] theorem State.setRegs_key (s : State) (r : Regs) :
    (s.setRegs r).key = s.key := rfl
@[simp] theorem State.setRegs_await (s : State) (r : Regs) :
    (s.setRegs r).await = s.await := rfl
@[simp] theorem State.setRegs_capt (s : State) (r : Regs) :
    (s.setRegs r).capt = s.capt := rfl
@[simp] theorem State.setRegs_q (s : State) (r : Regs) :
    (s.setRegs r).q = s.q := rfl
@[simp] theorem State.setRegs_romLoaded (s : State) (r : Regs) :
    (s.setRegs r).romLoaded = s.romLoaded := rfl
@[simp] theorem State.setRegs_qJumpVx (s : State) (r : Regs) :
    (s.setRegs r).qJumpVx = s.qJumpVx := rfl
@[simp] theorem State.setRegs_rngDraws (s : State) (r : Regs) :
    (s.setRegs r).rngDraws = s.rngDraws := rfl
@[simp] theorem State.setRegs_getKey (s : State) (r : Regs) (k' : Nibble) :
    (s.setRegs r).getKey k' = s.getKey k' := rfl

/-! ### `setI` -/

@[simp] theorem State.setI_v (s : State) (a : Word) :
    (s.setI a).v = s.v := rfl
@[simp] theorem State.setI_i (s : State) (a : Word) :
    (s.setI a).i = a := rfl
@[simp] theorem State.setI_pc (s : State) (a : Word) :
    (s.setI a).pc = s.pc := rfl
@[simp] theorem State.setI_sp (s : State) (a : Word) :
    (s.setI a).sp = s.sp := rfl
@[simp] theorem State.setI_stack (s : State) (a : Word) :
    (s.setI a).stack = s.stack := rfl
@[simp] theorem State.setI_mem (s : State) (a : Word) :
    (s.setI a).mem = s.mem := rfl
@[simp] theorem State.setI_disp (s : State) (a : Word) :
    (s.setI a).disp = s.disp := rfl
@[simp] theorem State.setI_dt (s : State) (a : Word) :
    (s.setI a).dt = s.dt := rfl
@[simp] theorem State.setI_st (s : State) (a : Word) :
    (s.setI a).st = s.st := rfl
@[simp] theorem State.setI_key (s : State) (a : Word) :
    (s.setI a).key = s.key := rfl
@[simp] theorem State.setI_await (s : State) (a : Word) :
    (s.setI a).await = s.await := rfl
@[simp] theorem State.setI_capt (s : State) (a : Word) :
    (s.setI a).capt = s.capt := rfl
@[simp] theorem State.setI_q (s : State) (a : Word) :
    (s.setI a).q = s.q := rfl
@[simp] theorem State.setI_romLoaded (s : State) (a : Word) :
    (s.setI a).romLoaded = s.romLoaded := rfl
@[simp] theorem State.setI_qJumpVx (s : State) (a : Word) :
    (s.setI a).qJumpVx = s.qJumpVx := rfl
@[simp] theorem State.setI_rngDraws (s : State) (a : Word) :
    (s.setI a).rngDraws = s.rngDraws := rfl
@[simp] theorem State.setI_getV (s : State) (a : Word) (r : Nibble) :
    (s.setI a).getV r = s.getV r := rfl
@[simp] theorem State.setI_getKey (s : State) (a : Word) (k' : Nibble) :
    (s.setI a).getKey k' = s.getKey k' := rfl

/-! ### `setPc` -/

@[simp] theorem State.setPc_v (s : State) (t : Word) :
    (s.setPc t).v = s.v := rfl
@[simp] theorem State.setPc_i (s : State) (t : Word) :
    (s.setPc t).i = s.i := rfl
@[simp] theorem State.setPc_pc (s : State) (t : Word) :
    (s.setPc t).pc = t := rfl
@[simp] theorem State.setPc_sp (s : State) (t : Word) :
    (s.setPc t).sp = s.sp := rfl
@[simp] theorem State.setPc_stack (s : State) (t : Word) :
    (s.setPc t).stack = s.stack := rfl
@[simp] theorem State.setPc_mem (s : State) (t : Word) :
    (s.setPc t).mem = s.mem := rfl
@[simp] theorem State.setPc_disp (s : State) (t : Word) :
    (s.setPc t).disp = s.disp := rfl
@[simp] theorem State.setPc_dt (s : State) (t : Word) :
    (s.setPc t).dt = s.dt := rfl
@[simp] theorem State.setPc_st (s : State) (t : Word) :
    (s.setPc t).st = s.st := rfl
@[simp] theorem State.setPc_key (s : State) (t : Word) :
    (s.setPc t).key = s.key := rfl
@[simp] theorem State.setPc_await (s : State) (t : Word) :
    (s.setPc t).await = s.await := rfl
@[simp] theorem State.setPc_capt (s : State) (t : Word) :
    (s.setPc t).capt = s.capt := rfl
@[simp] theorem State.setPc_q (s : State) (t : Word) :
    (s.setPc t).q = s.q := rfl
@[simp] theorem State.setPc_romLoaded (s : State) (t : Word) :
    (s.setPc t).romLoaded = s.romLoaded := rfl
@[simp] theorem State.setPc_qJumpVx (s : State) (t : Word) :
    (s.setPc t).qJumpVx = s.qJumpVx := rfl
@[simp] theorem State.setPc_rngDraws (s : State) (t : Word) :
    (s.setPc t).rngDraws = s.rngDraws := rfl
@[simp] theorem State.setPc_getV (s : State) (t : Word) (r : Nibble) :
    (s.setPc t).getV r = s.getV r := rfl
@[simp] theorem State.setPc_getKey (s : State) (t : Word) (k' : Nibble) :
    (s.setPc t).getKey k' = s.getKey k' := rfl

/-! ### `advance` -/

@[simp] theorem State.advance_v (s : State) :
    (s.advance).v = s.v := rfl
@[simp] theorem State.advance_i (s : State) :
    (s.advance).i = s.i := rfl
@[simp] theorem State.advance_pc (s : State) :
    (s.advance).pc = s.pc + 2#16 := rfl
@[simp] theorem State.advance_sp (s : State) :
    (s.advance).sp = s.sp := rfl
@[simp] theorem State.advance_stack (s : State) :
    (s.advance).stack = s.stack := rfl
@[simp] theorem State.advance_mem (s : State) :
    (s.advance).mem = s.mem := rfl
@[simp] theorem State.advance_disp (s : State) :
    (s.advance).disp = s.disp := rfl
@[simp] theorem State.advance_dt (s : State) :
    (s.advance).dt = s.dt := rfl
@[simp] theorem State.advance_st (s : State) :
    (s.advance).st = s.st := rfl
@[simp] theorem State.advance_key (s : State) :
    (s.advance).key = s.key := rfl
@[simp] theorem State.advance_await (s : State) :
    (s.advance).await = s.await := rfl
@[simp] theorem State.advance_capt (s : State) :
    (s.advance).capt = s.capt := rfl
@[simp] theorem State.advance_q (s : State) :
    (s.advance).q = s.q := rfl
@[simp] theorem State.advance_romLoaded (s : State) :
    (s.advance).romLoaded = s.romLoaded := rfl
@[simp] theorem State.advance_qJumpVx (s : State) :
    (s.advance).qJumpVx = s.qJumpVx := rfl
@[simp] theorem State.advance_rngDraws (s : State) :
    (s.advance).rngDraws = s.rngDraws := rfl
@[simp] theorem State.advance_getV (s : State) (r : Nibble) :
    (s.advance).getV r = s.getV r := rfl
@[simp] theorem State.advance_getKey (s : State) (k' : Nibble) :
    (s.advance).getKey k' = s.getKey k' := rfl

/-! ### `skipIf` -/

@[simp] theorem State.skipIf_v (s : State) (c : Bool) :
    (s.skipIf c).v = s.v := rfl
@[simp] theorem State.skipIf_i (s : State) (c : Bool) :
    (s.skipIf c).i = s.i := rfl
@[simp] theorem State.skipIf_pc (s : State) (c : Bool) :
    (s.skipIf c).pc = s.pc + if c then 4#16 else 2#16 := rfl
@[simp] theorem State.skipIf_sp (s : State) (c : Bool) :
    (s.skipIf c).sp = s.sp := rfl
@[simp] theorem State.skipIf_stack (s : State) (c : Bool) :
    (s.skipIf c).stack = s.stack := rfl
@[simp] theorem State.skipIf_mem (s : State) (c : Bool) :
    (s.skipIf c).mem = s.mem := rfl
@[simp] theorem State.skipIf_disp (s : State) (c : Bool) :
    (s.skipIf c).disp = s.disp := rfl
@[simp] theorem State.skipIf_dt (s : State) (c : Bool) :
    (s.skipIf c).dt = s.dt := rfl
@[simp] theorem State.skipIf_st (s : State) (c : Bool) :
    (s.skipIf c).st = s.st := rfl
@[simp] theorem State.skipIf_key (s : State) (c : Bool) :
    (s.skipIf c).key = s.key := rfl
@[simp] theorem State.skipIf_await (s : State) (c : Bool) :
    (s.skipIf c).await = s.await := rfl
@[simp] theorem State.skipIf_capt (s : State) (c : Bool) :
    (s.skipIf c).capt = s.capt := rfl
@[simp] theorem State.skipIf_q (s : State) (c : Bool) :
    (s.skipIf c).q = s.q := rfl
@[simp] theorem State.skipIf_romLoaded (s : State) (c : Bool) :
    (s.skipIf c).romLoaded = s.romLoaded := rfl
@[simp] theorem State.skipIf_qJumpVx (s : State) (c : Bool) :
    (s.skipIf c).qJumpVx = s.qJumpVx := rfl
@[simp] theorem State.skipIf_rngDraws (s : State) (c : Bool) :
    (s.skipIf c).rngDraws = s.rngDraws := rfl
@[simp] theorem State.skipIf_getV (s : State) (c : Bool) (r : Nibble) :
    (s.skipIf c).getV r = s.getV r := rfl
@[simp] theorem State.skipIf_getKey (s : State) (c : Bool) (k' : Nibble) :
    (s.skipIf c).getKey k' = s.getKey k' := rfl

/-! ### `setMem` -/

@[simp] theorem State.setMem_v (s : State) (m : Memory) :
    (s.setMem m).v = s.v := rfl
@[simp] theorem State.setMem_i (s : State) (m : Memory) :
    (s.setMem m).i = s.i := rfl
@[simp] theorem State.setMem_pc (s : State) (m : Memory) :
    (s.setMem m).pc = s.pc := rfl
@[simp] theorem State.setMem_sp (s : State) (m : Memory) :
    (s.setMem m).sp = s.sp := rfl
@[simp] theorem State.setMem_stack (s : State) (m : Memory) :
    (s.setMem m).stack = s.stack := rfl
@[simp] theorem State.setMem_mem (s : State) (m : Memory) :
    (s.setMem m).mem = m := rfl
@[simp] theorem State.setMem_disp (s : State) (m : Memory) :
    (s.setMem m).disp = s.disp := rfl
@[simp] theorem State.setMem_dt (s : State) (m : Memory) :
    (s.setMem m).dt = s.dt := rfl
@[simp] theorem State.setMem_st (s : State) (m : Memory) :
    (s.setMem m).st = s.st := rfl
@[simp] theorem State.setMem_key (s : State) (m : Memory) :
    (s.setMem m).key = s.key := rfl
@[simp] theorem State.setMem_await (s : State) (m : Memory) :
    (s.setMem m).await = s.await := rfl
@[simp] theorem State.setMem_capt (s : State) (m : Memory) :
    (s.setMem m).capt = s.capt := rfl
@[simp] theorem State.setMem_q (s : State) (m : Memory) :
    (s.setMem m).q = s.q := rfl
@[simp] theorem State.setMem_romLoaded (s : State) (m : Memory) :
    (s.setMem m).romLoaded = s.romLoaded := rfl
@[simp] theorem State.setMem_qJumpVx (s : State) (m : Memory) :
    (s.setMem m).qJumpVx = s.qJumpVx := rfl
@[simp] theorem State.setMem_rngDraws (s : State) (m : Memory) :
    (s.setMem m).rngDraws = s.rngDraws := rfl
@[simp] theorem State.setMem_getV (s : State) (m : Memory) (r : Nibble) :
    (s.setMem m).getV r = s.getV r := rfl
@[simp] theorem State.setMem_getKey (s : State) (m : Memory) (k' : Nibble) :
    (s.setMem m).getKey k' = s.getKey k' := rfl

/-! ### `setDisp` -/

@[simp] theorem State.setDisp_v (s : State) (d : Display) :
    (s.setDisp d).v = s.v := rfl
@[simp] theorem State.setDisp_i (s : State) (d : Display) :
    (s.setDisp d).i = s.i := rfl
@[simp] theorem State.setDisp_pc (s : State) (d : Display) :
    (s.setDisp d).pc = s.pc := rfl
@[simp] theorem State.setDisp_sp (s : State) (d : Display) :
    (s.setDisp d).sp = s.sp := rfl
@[simp] theorem State.setDisp_stack (s : State) (d : Display) :
    (s.setDisp d).stack = s.stack := rfl
@[simp] theorem State.setDisp_mem (s : State) (d : Display) :
    (s.setDisp d).mem = s.mem := rfl
@[simp] theorem State.setDisp_disp (s : State) (d : Display) :
    (s.setDisp d).disp = d := rfl
@[simp] theorem State.setDisp_dt (s : State) (d : Display) :
    (s.setDisp d).dt = s.dt := rfl
@[simp] theorem State.setDisp_st (s : State) (d : Display) :
    (s.setDisp d).st = s.st := rfl
@[simp] theorem State.setDisp_key (s : State) (d : Display) :
    (s.setDisp d).key = s.key := rfl
@[simp] theorem State.setDisp_await (s : State) (d : Display) :
    (s.setDisp d).await = s.await := rfl
@[simp] theorem State.setDisp_capt (s : State) (d : Display) :
    (s.setDisp d).capt = s.capt := rfl
@[simp] theorem State.setDisp_q (s : State) (d : Display) :
    (s.setDisp d).q = s.q := rfl
@[simp] theorem State.setDisp_romLoaded (s : State) (d : Display) :
    (s.setDisp d).romLoaded = s.romLoaded := rfl
@[simp] theorem State.setDisp_qJumpVx (s : State) (d : Display) :
    (s.setDisp d).qJumpVx = s.qJumpVx := rfl
@[simp] theorem State.setDisp_rngDraws (s : State) (d : Display) :
    (s.setDisp d).rngDraws = s.rngDraws := rfl
@[simp] theorem State.setDisp_getV (s : State) (d : Display) (r : Nibble) :
    (s.setDisp d).getV r = s.getV r := rfl
@[simp] theorem State.setDisp_getKey (s : State) (d : Display) (k' : Nibble) :
    (s.setDisp d).getKey k' = s.getKey k' := rfl

/-! ### `setDt` -/

@[simp] theorem State.setDt_v (s : State) (b : Byte) :
    (s.setDt b).v = s.v := rfl
@[simp] theorem State.setDt_i (s : State) (b : Byte) :
    (s.setDt b).i = s.i := rfl
@[simp] theorem State.setDt_pc (s : State) (b : Byte) :
    (s.setDt b).pc = s.pc := rfl
@[simp] theorem State.setDt_sp (s : State) (b : Byte) :
    (s.setDt b).sp = s.sp := rfl
@[simp] theorem State.setDt_stack (s : State) (b : Byte) :
    (s.setDt b).stack = s.stack := rfl
@[simp] theorem State.setDt_mem (s : State) (b : Byte) :
    (s.setDt b).mem = s.mem := rfl
@[simp] theorem State.setDt_disp (s : State) (b : Byte) :
    (s.setDt b).disp = s.disp := rfl
@[simp] theorem State.setDt_dt (s : State) (b : Byte) :
    (s.setDt b).dt = b := rfl
@[simp] theorem State.setDt_st (s : State) (b : Byte) :
    (s.setDt b).st = s.st := rfl
@[simp] theorem State.setDt_key (s : State) (b : Byte) :
    (s.setDt b).key = s.key := rfl
@[simp] theorem State.setDt_await (s : State) (b : Byte) :
    (s.setDt b).await = s.await := rfl
@[simp] theorem State.setDt_capt (s : State) (b : Byte) :
    (s.setDt b).capt = s.capt := rfl
@[simp] theorem State.setDt_q (s : State) (b : Byte) :
    (s.setDt b).q = s.q := rfl
@[simp] theorem State.setDt_romLoaded (s : State) (b : Byte) :
    (s.setDt b).romLoaded = s.romLoaded := rfl
@[simp] theorem State.setDt_qJumpVx (s : State) (b : Byte) :
    (s.setDt b).qJumpVx = s.qJumpVx := rfl
@[simp] theorem State.setDt_rngDraws (s : State) (b : Byte) :
    (s.setDt b).rngDraws = s.rngDraws := rfl
@[simp] theorem State.setDt_getV (s : State) (b : Byte) (r : Nibble) :
    (s.setDt b).getV r = s.getV r := rfl
@[simp] theorem State.setDt_getKey (s : State) (b : Byte) (k' : Nibble) :
    (s.setDt b).getKey k' = s.getKey k' := rfl

/-! ### `setSt` -/

@[simp] theorem State.setSt_v (s : State) (b : Byte) :
    (s.setSt b).v = s.v := rfl
@[simp] theorem State.setSt_i (s : State) (b : Byte) :
    (s.setSt b).i = s.i := rfl
@[simp] theorem State.setSt_pc (s : State) (b : Byte) :
    (s.setSt b).pc = s.pc := rfl
@[simp] theorem State.setSt_sp (s : State) (b : Byte) :
    (s.setSt b).sp = s.sp := rfl
@[simp] theorem State.setSt_stack (s : State) (b : Byte) :
    (s.setSt b).stack = s.stack := rfl
@[simp] theorem State.setSt_mem (s : State) (b : Byte) :
    (s.setSt b).mem = s.mem := rfl
@[simp] theorem State.setSt_disp (s : State) (b : Byte) :
    (s.setSt b).disp = s.disp := rfl
@[simp] theorem State.setSt_dt (s : State) (b : Byte) :
    (s.setSt b).dt = s.dt := rfl
@[simp] theorem State.setSt_st (s : State) (b : Byte) :
    (s.setSt b).st = b := rfl
@[simp] theorem State.setSt_key (s : State) (b : Byte) :
    (s.setSt b).key = s.key := rfl
@[simp] theorem State.setSt_await (s : State) (b : Byte) :
    (s.setSt b).await = s.await := rfl
@[simp] theorem State.setSt_capt (s : State) (b : Byte) :
    (s.setSt b).capt = s.capt := rfl
@[simp] theorem State.setSt_q (s : State) (b : Byte) :
    (s.setSt b).q = s.q := rfl
@[simp] theorem State.setSt_romLoaded (s : State) (b : Byte) :
    (s.setSt b).romLoaded = s.romLoaded := rfl
@[simp] theorem State.setSt_qJumpVx (s : State) (b : Byte) :
    (s.setSt b).qJumpVx = s.qJumpVx := rfl
@[simp] theorem State.setSt_rngDraws (s : State) (b : Byte) :
    (s.setSt b).rngDraws = s.rngDraws := rfl
@[simp] theorem State.setSt_getV (s : State) (b : Byte) (r : Nibble) :
    (s.setSt b).getV r = s.getV r := rfl
@[simp] theorem State.setSt_getKey (s : State) (b : Byte) (k' : Nibble) :
    (s.setSt b).getKey k' = s.getKey k' := rfl

/-! ### `setWait` -/

@[simp] theorem State.setWait_v (s : State) (a : Bool) (c : Option Nibble) :
    (s.setWait a c).v = s.v := rfl
@[simp] theorem State.setWait_i (s : State) (a : Bool) (c : Option Nibble) :
    (s.setWait a c).i = s.i := rfl
@[simp] theorem State.setWait_pc (s : State) (a : Bool) (c : Option Nibble) :
    (s.setWait a c).pc = s.pc := rfl
@[simp] theorem State.setWait_sp (s : State) (a : Bool) (c : Option Nibble) :
    (s.setWait a c).sp = s.sp := rfl
@[simp] theorem State.setWait_stack (s : State) (a : Bool) (c : Option Nibble) :
    (s.setWait a c).stack = s.stack := rfl
@[simp] theorem State.setWait_mem (s : State) (a : Bool) (c : Option Nibble) :
    (s.setWait a c).mem = s.mem := rfl
@[simp] theorem State.setWait_disp (s : State) (a : Bool) (c : Option Nibble) :
    (s.setWait a c).disp = s.disp := rfl
@[simp] theorem State.setWait_dt (s : State) (a : Bool) (c : Option Nibble) :
    (s.setWait a c).dt = s.dt := rfl
@[simp] theorem State.setWait_st (s : State) (a : Bool) (c : Option Nibble) :
    (s.setWait a c).st = s.st := rfl
@[simp] theorem State.setWait_key (s : State) (a : Bool) (c : Option Nibble) :
    (s.setWait a c).key = s.key := rfl
@[simp] theorem State.setWait_await (s : State) (a : Bool) (c : Option Nibble) :
    (s.setWait a c).await = a := rfl
@[simp] theorem State.setWait_capt (s : State) (a : Bool) (c : Option Nibble) :
    (s.setWait a c).capt = c := rfl
@[simp] theorem State.setWait_q (s : State) (a : Bool) (c : Option Nibble) :
    (s.setWait a c).q = s.q := rfl
@[simp] theorem State.setWait_romLoaded (s : State) (a : Bool) (c : Option Nibble) :
    (s.setWait a c).romLoaded = s.romLoaded := rfl
@[simp] theorem State.setWait_qJumpVx (s : State) (a : Bool) (c : Option Nibble) :
    (s.setWait a c).qJumpVx = s.qJumpVx := rfl
@[simp] theorem State.setWait_rngDraws (s : State) (a : Bool) (c : Option Nibble) :
    (s.setWait a c).rngDraws = s.rngDraws := rfl
@[simp] theorem State.setWait_getV (s : State) (a : Bool) (c : Option Nibble) (r : Nibble) :
    (s.setWait a c).getV r = s.getV r := rfl
@[simp] theorem State.setWait_getKey (s : State) (a : Bool) (c : Option Nibble) (k' : Nibble) :
    (s.setWait a c).getKey k' = s.getKey k' := rfl

/-! ### `setKey` -/

@[simp] theorem State.setKey_v (s : State) (k : Nibble) (b : Bool) :
    (s.setKey k b).v = s.v := rfl
@[simp] theorem State.setKey_i (s : State) (k : Nibble) (b : Bool) :
    (s.setKey k b).i = s.i := rfl
@[simp] theorem State.setKey_pc (s : State) (k : Nibble) (b : Bool) :
    (s.setKey k b).pc = s.pc := rfl
@[simp] theorem State.setKey_sp (s : State) (k : Nibble) (b : Bool) :
    (s.setKey k b).sp = s.sp := rfl
@[simp] theorem State.setKey_stack (s : State) (k : Nibble) (b : Bool) :
    (s.setKey k b).stack = s.stack := rfl
@[simp] theorem State.setKey_mem (s : State) (k : Nibble) (b : Bool) :
    (s.setKey k b).mem = s.mem := rfl
@[simp] theorem State.setKey_disp (s : State) (k : Nibble) (b : Bool) :
    (s.setKey k b).disp = s.disp := rfl
@[simp] theorem State.setKey_dt (s : State) (k : Nibble) (b : Bool) :
    (s.setKey k b).dt = s.dt := rfl
@[simp] theorem State.setKey_st (s : State) (k : Nibble) (b : Bool) :
    (s.setKey k b).st = s.st := rfl
@[simp] theorem State.setKey_key (s : State) (k : Nibble) (b : Bool) :
    (s.setKey k b).key = s.key.set k.toNat b k.lt_sixteen := rfl
@[simp] theorem State.setKey_await (s : State) (k : Nibble) (b : Bool) :
    (s.setKey k b).await = s.await := rfl
@[simp] theorem State.setKey_capt (s : State) (k : Nibble) (b : Bool) :
    (s.setKey k b).capt = s.capt := rfl
@[simp] theorem State.setKey_q (s : State) (k : Nibble) (b : Bool) :
    (s.setKey k b).q = s.q := rfl
@[simp] theorem State.setKey_romLoaded (s : State) (k : Nibble) (b : Bool) :
    (s.setKey k b).romLoaded = s.romLoaded := rfl
@[simp] theorem State.setKey_qJumpVx (s : State) (k : Nibble) (b : Bool) :
    (s.setKey k b).qJumpVx = s.qJumpVx := rfl
@[simp] theorem State.setKey_rngDraws (s : State) (k : Nibble) (b : Bool) :
    (s.setKey k b).rngDraws = s.rngDraws := rfl
@[simp] theorem State.setKey_getV (s : State) (k : Nibble) (b : Bool) (r : Nibble) :
    (s.setKey k b).getV r = s.getV r := rfl

/-! ### `setStack` -/

@[simp] theorem State.setStack_v (s : State) (n : Fin 17) (st : Vector Word 16) :
    (s.setStack n st).v = s.v := rfl
@[simp] theorem State.setStack_i (s : State) (n : Fin 17) (st : Vector Word 16) :
    (s.setStack n st).i = s.i := rfl
@[simp] theorem State.setStack_pc (s : State) (n : Fin 17) (st : Vector Word 16) :
    (s.setStack n st).pc = s.pc := rfl
@[simp] theorem State.setStack_sp (s : State) (n : Fin 17) (st : Vector Word 16) :
    (s.setStack n st).sp = n := rfl
@[simp] theorem State.setStack_stack (s : State) (n : Fin 17) (st : Vector Word 16) :
    (s.setStack n st).stack = st := rfl
@[simp] theorem State.setStack_mem (s : State) (n : Fin 17) (st : Vector Word 16) :
    (s.setStack n st).mem = s.mem := rfl
@[simp] theorem State.setStack_disp (s : State) (n : Fin 17) (st : Vector Word 16) :
    (s.setStack n st).disp = s.disp := rfl
@[simp] theorem State.setStack_dt (s : State) (n : Fin 17) (st : Vector Word 16) :
    (s.setStack n st).dt = s.dt := rfl
@[simp] theorem State.setStack_st (s : State) (n : Fin 17) (st : Vector Word 16) :
    (s.setStack n st).st = s.st := rfl
@[simp] theorem State.setStack_key (s : State) (n : Fin 17) (st : Vector Word 16) :
    (s.setStack n st).key = s.key := rfl
@[simp] theorem State.setStack_await (s : State) (n : Fin 17) (st : Vector Word 16) :
    (s.setStack n st).await = s.await := rfl
@[simp] theorem State.setStack_capt (s : State) (n : Fin 17) (st : Vector Word 16) :
    (s.setStack n st).capt = s.capt := rfl
@[simp] theorem State.setStack_q (s : State) (n : Fin 17) (st : Vector Word 16) :
    (s.setStack n st).q = s.q := rfl
@[simp] theorem State.setStack_romLoaded (s : State) (n : Fin 17) (st : Vector Word 16) :
    (s.setStack n st).romLoaded = s.romLoaded := rfl
@[simp] theorem State.setStack_qJumpVx (s : State) (n : Fin 17) (st : Vector Word 16) :
    (s.setStack n st).qJumpVx = s.qJumpVx := rfl
@[simp] theorem State.setStack_rngDraws (s : State) (n : Fin 17) (st : Vector Word 16) :
    (s.setStack n st).rngDraws = s.rngDraws := rfl
@[simp] theorem State.setStack_getV (s : State) (n : Fin 17) (st : Vector Word 16) (r : Nibble) :
    (s.setStack n st).getV r = s.getV r := rfl
@[simp] theorem State.setStack_getKey (s : State) (n : Fin 17) (st : Vector Word 16) (k' : Nibble) :
    (s.setStack n st).getKey k' = s.getKey k' := rfl

/-! ### `countDraw` -/

@[simp] theorem State.countDraw_v (s : State) :
    (s.countDraw).v = s.v := rfl
@[simp] theorem State.countDraw_i (s : State) :
    (s.countDraw).i = s.i := rfl
@[simp] theorem State.countDraw_pc (s : State) :
    (s.countDraw).pc = s.pc := rfl
@[simp] theorem State.countDraw_sp (s : State) :
    (s.countDraw).sp = s.sp := rfl
@[simp] theorem State.countDraw_stack (s : State) :
    (s.countDraw).stack = s.stack := rfl
@[simp] theorem State.countDraw_mem (s : State) :
    (s.countDraw).mem = s.mem := rfl
@[simp] theorem State.countDraw_disp (s : State) :
    (s.countDraw).disp = s.disp := rfl
@[simp] theorem State.countDraw_dt (s : State) :
    (s.countDraw).dt = s.dt := rfl
@[simp] theorem State.countDraw_st (s : State) :
    (s.countDraw).st = s.st := rfl
@[simp] theorem State.countDraw_key (s : State) :
    (s.countDraw).key = s.key := rfl
@[simp] theorem State.countDraw_await (s : State) :
    (s.countDraw).await = s.await := rfl
@[simp] theorem State.countDraw_capt (s : State) :
    (s.countDraw).capt = s.capt := rfl
@[simp] theorem State.countDraw_q (s : State) :
    (s.countDraw).q = s.q := rfl
@[simp] theorem State.countDraw_romLoaded (s : State) :
    (s.countDraw).romLoaded = s.romLoaded := rfl
@[simp] theorem State.countDraw_qJumpVx (s : State) :
    (s.countDraw).qJumpVx = s.qJumpVx := rfl
@[simp] theorem State.countDraw_rngDraws (s : State) :
    (s.countDraw).rngDraws = s.rngDraws + 1 := rfl
@[simp] theorem State.countDraw_getV (s : State) (r : Nibble) :
    (s.countDraw).getV r = s.getV r := rfl
@[simp] theorem State.countDraw_getKey (s : State) (k' : Nibble) :
    (s.countDraw).getKey k' = s.getKey k' := rfl

/-! ### Reading back -/

theorem State.setV_getV (s : State) (x r : Nibble) (b : Byte) :
    (s.setV x b).getV r = if r = x then b else s.getV r := by
  simp only [State.getV, State.setV, Vector.getElem_set, BitVec.toNat_eq, eq_comm]

@[simp] theorem State.setV_getV_self (s : State) (x : Nibble) (b : Byte) : (s.setV x b).getV x = b := by
  simp [State.setV_getV]

theorem State.setV_getV_of_ne (s : State) {x r : Nibble} (b : Byte) (h : r ≠ x) :
    (s.setV x b).getV r = s.getV r := by
  simp [State.setV_getV, h]

theorem State.setVF_getV (s : State) (f : Bool) (r : Nibble) :
    (s.setVF f).getV r = if r = 15#4 then (if f then 1#8 else 0#8) else s.getV r :=
  s.setV_getV _ _ _

theorem State.setKey_getKey (s : State) (k r : Nibble) (b : Bool) :
    (s.setKey k b).getKey r = if r = k then b else s.getKey r := by
  simp only [State.getKey, State.setKey, Vector.getElem_set, BitVec.toNat_eq, eq_comm]

/-- Two register files are equal when every register is. -/
theorem State.v_eq_of_getV {s t : State} (h : ∀ r, t.getV r = s.getV r) : t.v = s.v := by
  refine Vector.ext fun k hk => ?_
  have := h (BitVec.ofNat 4 k)
  simpa only [State.getV, BitVec.toNat_ofNat, Nat.mod_eq_of_lt (show k < 2 ^ 4 from hk)] using this

end Sys2Proof.Machine
end

