-- ==== Sys2Proof/Laws/Memory.lean ====
section
/-! SUPPORT. The laws of memory: read after write, the canonical form, and the block accesses. -/

namespace Sys2Proof.Machine

/-! ### Reading -/

@[simp] theorem Memory.read_nil (a : Nat) : Memory.read [] a = resetByte a := rfl

theorem Memory.read_cons (m : Memory) (b a : Nat) (v : Byte) :
    Memory.read ((b, v) :: m) a = if b = a then v else Memory.read m a := rfl

/-! ### The canonical form -/

theorem Memory.wfFrom_cons {lo a : Nat} {v : Byte} {m : Memory} :
    Memory.wfFrom lo ((a, v) :: m) = true ↔
      lo ≤ a ∧ a < 4096 ∧ v ≠ resetByte a ∧ Memory.wfFrom (a + 1) m = true := by
  simp [Memory.wfFrom, and_assoc]

theorem Memory.wfFrom_mono {lo lo' : Nat} {m : Memory} (h : lo' ≤ lo)
    (hm : Memory.wfFrom lo m = true) : Memory.wfFrom lo' m = true := by
  cases m with
  | nil => rfl
  | cons c m =>
    rw [Memory.wfFrom_cons] at hm ⊢
    exact ⟨by omega, hm.2⟩

/-- Below the first listed address every byte has its reset value. -/
theorem Memory.read_of_lt {lo a : Nat} {m : Memory} (hm : Memory.wfFrom lo m = true) (h : a < lo) :
    m.read a = resetByte a := by
  induction m generalizing lo with
  | nil => rfl
  | cons c m ih =>
    obtain ⟨b, w⟩ := c
    rw [Memory.wfFrom_cons] at hm
    rw [Memory.read_cons, if_neg (by omega)]
    exact ih hm.2.2.2 (by omega)

/-- Outside the address space nothing is listed. -/
theorem Memory.read_of_ge {m : Memory} {lo : Nat} (hm : Memory.wfFrom lo m = true) {a : Nat}
    (h : 4096 ≤ a) : m.read a = resetByte a := by
  induction m generalizing lo with
  | nil => rfl
  | cons c m ih =>
    obtain ⟨b, w⟩ := c
    rw [Memory.wfFrom_cons] at hm
    rw [Memory.read_cons, if_neg (by omega)]
    exact ih hm.2.2.2

theorem Memory.wfFrom_write {lo a : Nat} {v : Byte} {m : Memory} (hm : Memory.wfFrom lo m = true)
    (hlo : lo ≤ a) (ha : a < 4096) : Memory.wfFrom lo (m.write a v) = true := by
  induction m generalizing lo with
  | nil =>
    rw [Memory.write]
    split
    · rfl
    · exact Memory.wfFrom_cons.2 ⟨hlo, ha, ‹_›, rfl⟩
  | cons c m ih =>
    obtain ⟨b, w⟩ := c
    obtain ⟨h1, h2, h3, h4⟩ := Memory.wfFrom_cons.1 hm
    rw [Memory.write]
    split_ifs with hab hv hab' hv'
    · exact hm
    · exact Memory.wfFrom_cons.2 ⟨hlo, ha, hv, Memory.wfFrom_cons.2 ⟨by omega, h2, h3, h4⟩⟩
    · exact Memory.wfFrom_mono (by omega) h4
    · subst hab'; exact Memory.wfFrom_cons.2 ⟨hlo, ha, hv', h4⟩
    · exact Memory.wfFrom_cons.2 ⟨h1, h2, h3, ih h4 (by omega)⟩

/-- Every write inside the address space keeps the canonical form. -/
theorem Memory.wf_write {a : Nat} {v : Byte} {m : Memory} (hm : m.wf = true) (ha : a < 4096) :
    (m.write a v).wf = true :=
  Memory.wfFrom_write hm (Nat.zero_le a) ha

/-! ### Read after write -/

theorem Memory.read_write_from {lo a a' : Nat} {v : Byte} {m : Memory}
    (hm : Memory.wfFrom lo m = true) :
    (m.write a v).read a' = if a' = a then v else m.read a' := by
  induction m generalizing lo with
  | nil =>
    rw [Memory.write]
    split_ifs with hv h h
    · rw [Memory.read_nil, h, hv]
    · rfl
    · rw [Memory.read_cons, if_pos h.symm]
    · rw [Memory.read_cons, if_neg (fun e => h e.symm)]
  | cons c m ih =>
    obtain ⟨b, w⟩ := c
    obtain ⟨-, -, -, h4⟩ := Memory.wfFrom_cons.1 hm
    rw [Memory.write]
    split_ifs with hab hv h h hab' hv' h h h
    · rw [Memory.read_cons, if_neg (by omega), h, hv]
      exact Memory.read_of_lt h4 (by omega)
    · rfl
    · rw [Memory.read_cons, if_pos h.symm]
    · rw [Memory.read_cons, if_neg (fun e => h e.symm)]
    · rw [h, hv']; exact Memory.read_of_lt h4 (by omega)
    · rw [Memory.read_cons, if_neg (by omega)]
    · rw [Memory.read_cons, if_pos h.symm]
    · rw [Memory.read_cons, Memory.read_cons, if_neg (by omega), if_neg (by omega)]
    · rw [Memory.read_cons, if_neg (by omega), ih h4, if_pos h]
    · rw [Memory.read_cons, ih h4, if_neg h, Memory.read_cons]

/-- A write gives its value at its address and leaves every other byte alone. -/
theorem Memory.read_write {a a' : Nat} {v : Byte} {m : Memory} (hm : m.wf = true) :
    (m.write a v).read a' = if a' = a then v else m.read a' :=
  Memory.read_write_from hm

/-! ### Equal reads, equal memories -/

theorem Memory.eq_of_read_from {lo : Nat} {m m' : Memory} (hm : Memory.wfFrom lo m = true)
    (hm' : Memory.wfFrom lo m' = true) (h : ∀ a, m.read a = m'.read a) : m = m' := by
  induction m generalizing lo m' with
  | nil =>
    cases m' with
    | nil => rfl
    | cons c m' =>
      obtain ⟨b, w⟩ := c
      have := h b
      rw [Memory.read_nil, Memory.read_cons, if_pos rfl] at this
      exact absurd this.symm (Memory.wfFrom_cons.1 hm').2.2.1
  | cons c m ih =>
    obtain ⟨a, v⟩ := c
    obtain ⟨h1, h2, h3, h4⟩ := Memory.wfFrom_cons.1 hm
    cases m' with
    | nil =>
      have := h a
      rw [Memory.read_cons, if_pos rfl, Memory.read_nil] at this
      exact absurd this h3
    | cons c' m' =>
      obtain ⟨b, w⟩ := c'
      obtain ⟨g1, g2, g3, g4⟩ := Memory.wfFrom_cons.1 hm'
      have hab : a = b := by
        rcases Nat.lt_trichotomy a b with hlt | heq | hgt
        · have := h a
          rw [Memory.read_cons, if_pos rfl, Memory.read_cons, if_neg (by omega),
            Memory.read_of_lt g4 (by omega)] at this
          exact absurd this h3
        · exact heq
        · have := h b
          rw [Memory.read_cons, if_neg (by omega), Memory.read_of_lt h4 (by omega), Memory.read_cons,
            if_pos rfl] at this
          exact absurd this.symm g3
      subst hab
      have hvw : v = w := by simpa [Memory.read] using h a
      subst hvw
      congr 1
      refine ih h4 g4 fun x => ?_
      by_cases hx : x ≤ a
      · rw [Memory.read_of_lt h4 (by omega), Memory.read_of_lt g4 (by omega)]
      · have := h x
        rwa [Memory.read_cons, Memory.read_cons, if_neg (by omega), if_neg (by omega)] at this

/-- Canonical memories that read the same are the same list. -/
theorem Memory.eq_of_read {m m' : Memory} (hm : m.wf = true) (hm' : m'.wf = true)
    (h : ∀ a, m.read a = m'.read a) : m = m' :=
  Memory.eq_of_read_from hm hm' h

/-! ### Blocks -/

@[simp] theorem Memory.length_readBytes (m : Memory) (a n : Nat) : (m.readBytes a n).length = n := by
  induction n generalizing a with
  | zero => rfl
  | succ n ih => simp [Memory.readBytes, ih]

/-- The `k`-th byte of a block read is the byte at `a + k`. -/
theorem Memory.getElem_readBytes (m : Memory) (a n k : Nat) (h : k < (m.readBytes a n).length) :
    (m.readBytes a n)[k] = m.read (a + k) := by
  induction n generalizing a k with
  | zero => simp at h
  | succ n ih =>
    cases k with
    | zero => rfl
    | succ k => simp only [Memory.readBytes, List.getElem_cons_succ, ih]; congr 1; omega

theorem Memory.wf_writeBytes {m : Memory} {a : Nat} {bs : List Byte} (hm : m.wf = true)
    (h : a + bs.length ≤ 4096) : (m.writeBytes a bs).wf = true := by
  induction bs generalizing m a with
  | nil => exact hm
  | cons b bs ih =>
    rw [List.length_cons] at h
    exact ih (Memory.wf_write hm (by omega)) (by omega)

/-- A block write puts the `k`-th byte at `a + k` and leaves every other byte alone. -/
theorem Memory.read_writeBytes {m : Memory} {a x : Nat} {bs : List Byte} (hm : m.wf = true)
    (h : a + bs.length ≤ 4096) :
    (m.writeBytes a bs).read x = if a ≤ x then bs.getD (x - a) (m.read x) else m.read x := by
  induction bs generalizing m a with
  | nil => simp [Memory.writeBytes]
  | cons b bs ih =>
    rw [List.length_cons] at h
    rw [Memory.writeBytes, ih (Memory.wf_write hm (by omega)) (by omega), Memory.read_write hm]
    rcases Nat.lt_trichotomy x a with hlt | rfl | hgt
    · rw [if_neg (by omega), if_neg (by omega), if_neg (by omega)]
    · simp
    · rw [if_pos (show a + 1 ≤ x by omega), if_pos (show a ≤ x by omega), if_neg (by omega),
        show x - a = (x - (a + 1)) + 1 from by omega, List.getD_cons_succ]

theorem Memory.read_writeBytes_outside {m : Memory} {a x : Nat} {bs : List Byte} (hm : m.wf = true)
    (h : a + bs.length ≤ 4096) (hx : x < a ∨ a + bs.length ≤ x) :
    (m.writeBytes a bs).read x = m.read x := by
  rw [Memory.read_writeBytes hm h]
  split
  · rw [List.getD_eq_default _ _ (by omega)]
  · rfl

theorem Memory.read_writeBytes_inside {m : Memory} {a k : Nat} {bs : List Byte} (hm : m.wf = true)
    (h : a + bs.length ≤ 4096) (hk : k < bs.length) :
    (m.writeBytes a bs).read (a + k) = bs[k] := by
  rw [Memory.read_writeBytes hm h, if_pos (by omega), show a + k - a = k from by omega,
    List.getD_eq_getElem _ _ hk]

/-! ### The checked accesses -/

/-- The data bounds check passes exactly when every byte accessed is at or below 0xFFF. -/
theorem dataFault_eq_none {a n : Nat} : dataFault a n = none ↔ n = 0 ∨ a + n ≤ 4096 := by
  unfold dataFault
  split
  · exact ⟨fun _ => ‹_›, fun _ => rfl⟩
  · exact ⟨(fun h => nomatch h), fun h => absurd h ‹_›⟩

theorem dataFault_eq_some {a n : Nat} {f : Fault} :
    dataFault a n = some f ↔ (0 < n ∧ 4096 < a + n) ∧ f = .memoryOutOfBounds (max a 4096) := by
  unfold dataFault
  simp only [Config.memSize]
  split
  · simp; omega
  · simp only [Option.some.injEq]
    constructor
    · rintro rfl; exact ⟨by omega, rfl⟩
    · rintro ⟨-, rfl⟩; rfl

theorem memReadBlock_cases (m : Memory) (a n : Nat) :
    ((n = 0 ∨ a + n ≤ 4096) ∧ memReadBlock m a n = .ok (m.readBytes a n)) ∨
    ((0 < n ∧ 4096 < a + n) ∧ memReadBlock m a n = .error (.memoryOutOfBounds (max a 4096))) := by
  by_cases h : n = 0 ∨ a + n ≤ 4096
  · exact .inl ⟨h, by simp [memReadBlock, dataFault_eq_none.2 h]⟩
  · have h' : 0 < n ∧ 4096 < a + n := by omega
    exact .inr ⟨h', by simp [memReadBlock, dataFault_eq_some.2 ⟨h', rfl⟩]⟩

theorem memReadBlock_ok {m : Memory} {a n : Nat} (h : n = 0 ∨ a + n ≤ 4096) :
    memReadBlock m a n = .ok (m.readBytes a n) := by
  simp [memReadBlock, dataFault_eq_none.2 h]

theorem memReadBlock_error {m : Memory} {a n : Nat} (h : 0 < n ∧ 4096 < a + n) :
    memReadBlock m a n = .error (.memoryOutOfBounds (max a 4096)) := by
  simp [memReadBlock, dataFault_eq_some.2 ⟨h, rfl⟩]

theorem memWriteBlock_ok {m : Memory} {a : Nat} {bs : List Byte}
    (h : bs.length = 0 ∨ a + bs.length ≤ 4096) :
    memWriteBlock m a bs = .ok (m.writeBytes a bs) := by
  simp [memWriteBlock, dataFault_eq_none.2 h]

theorem memWriteBlock_error {m : Memory} {a : Nat} {bs : List Byte}
    (h : 0 < bs.length ∧ 4096 < a + bs.length) :
    memWriteBlock m a bs = .error (.memoryOutOfBounds (max a 4096)) := by
  simp [memWriteBlock, dataFault_eq_some.2 ⟨h, rfl⟩]

/-- A block write of at least one byte either happens whole inside memory or reports the lowest
offending address. -/
theorem memWriteBlock_cases (m : Memory) (a : Nat) (bs : List Byte) :
    ((bs.length = 0 ∨ a + bs.length ≤ 4096) ∧ memWriteBlock m a bs = .ok (m.writeBytes a bs)) ∨
    ((0 < bs.length ∧ 4096 < a + bs.length) ∧
      memWriteBlock m a bs = .error (.memoryOutOfBounds (max a 4096))) := by
  by_cases h : bs.length = 0 ∨ a + bs.length ≤ 4096
  · exact .inl ⟨h, memWriteBlock_ok h⟩
  · exact .inr ⟨by omega, memWriteBlock_error (by omega)⟩

/-- A successful block write keeps the canonical form. -/
theorem memWriteBlock_wf {m m' : Memory} {a : Nat} {bs : List Byte} (hm : m.wf = true)
    (h : memWriteBlock m a bs = .ok m') : m'.wf = true := by
  rcases memWriteBlock_cases m a bs with ⟨hb, he⟩ | ⟨-, he⟩
  · rw [he] at h
    cases h
    rcases hb with hb | hb
    · rw [List.length_eq_zero_iff.1 hb]; exact hm
    · exact Memory.wf_writeBytes hm hb
  · rw [he] at h; cases h

/-- The fetch reads two bytes big-endian or reports its own address. -/
theorem memRead2_ok {m : Memory} {a : Nat} (h : a + 1 < 4096) :
    memRead2 m a = .ok (m.read a ++ m.read (a + 1)) := if_pos h

theorem memRead2_error {m : Memory} {a : Nat} (h : ¬ a + 1 < 4096) :
    memRead2 m a = .error (.memoryOutOfBounds a) := if_neg h

end Sys2Proof.Machine
end

