-- ==== Sys2Proof/Laws/Ops.lean ====
section
/-! SUPPORT. What each shared operation can do, said once: the checked transfer, the stack, the block
load of registers, the operands and the flags. -/

namespace Sys2Proof.Machine

/-! ### Checked transfer (R130) -/

/-- `SetPC` completes exactly on the even targets up to 0xFFE. -/
theorem setPC_next {t : Nat} {s u : State} :
    setPC t s = .next u ↔ t + 1 < 4096 ∧ t % 2 = 0 ∧ u = s.setPc (BitVec.ofNat 16 t) := by
  simp only [setPC, targetOutOfBounds, raise, Config.memSize, decide_eq_true_eq]
  split_ifs with h1 h2
  · simp; omega
  · simp; omega
  · simp only [Host.Outcome.next.injEq]
    constructor
    · rintro rfl; exact ⟨by omega, by omega, rfl⟩
    · rintro ⟨-, -, rfl⟩; rfl

theorem setPC_ok {t : Nat} {s : State} (h1 : t + 1 < 4096) (h2 : t % 2 = 0) :
    setPC t s = .next (s.setPc (BitVec.ofNat 16 t)) := setPC_next.2 ⟨h1, h2, rfl⟩

/-- Bounds is reported before parity. -/
theorem setPC_fault {t : Nat} {s : State} {f : Fault} :
    setPC t s = .fault f ↔ (4096 ≤ t + 1 ∧ f = .memoryOutOfBounds t) ∨
      (t + 1 < 4096 ∧ t % 2 = 1 ∧ f = .misalignedPC t) := by
  simp only [setPC, targetOutOfBounds, raise, Config.memSize, decide_eq_true_eq]
  split_ifs with h1 h2
  · simp only [Host.Outcome.fault.injEq]
    constructor
    · rintro rfl; exact .inl ⟨h1, rfl⟩
    · rintro (⟨-, rfl⟩ | ⟨h, -⟩)
      · rfl
      · omega
  · simp only [Host.Outcome.fault.injEq]
    constructor
    · rintro rfl; exact .inr ⟨by omega, h2, rfl⟩
    · rintro (⟨h, -⟩ | ⟨-, -, rfl⟩)
      · omega
      · rfl
  · simp; omega

theorem setPC_not_refused {t : Nat} {s : State} {r : Refusal} : setPC t s ≠ .refused r := by
  simp only [setPC, raise]
  split_ifs <;> simp

/-! ### The stack (R26) -/

theorem State.push_some {s u : State} {v : Word} :
    s.push v = some u ↔ ∃ h : s.sp.val < 16,
      u = s.setStack ⟨s.sp.val + 1, Nat.succ_lt_succ h⟩ (s.stack.set s.sp.val v h) := by
  unfold State.push
  split
  · rename_i h
    simp only [Option.some.injEq]
    exact ⟨fun e => ⟨h, e.symm⟩, fun ⟨_, e⟩ => e.symm⟩
  · rename_i h
    simp only [reduceCtorEq, false_iff]
    exact fun ⟨h', _⟩ => h h'

theorem State.push_none {s : State} {v : Word} : s.push v = none ↔ s.sp.val = 16 := by
  unfold State.push
  have := s.sp.isLt
  simp only [Config.stackDepth]
  split
  · simp; omega
  · simp; omega

theorem State.pop_some {s u : State} {t : Word} :
    s.pop = some (t, u) ↔ ∃ h : 0 < s.sp.val,
      t = s.stack[s.sp.val - 1]'(by have := s.sp.isLt; omega) ∧
      u = s.setStack ⟨s.sp.val - 1, by have := s.sp.isLt; omega⟩ s.stack := by
  unfold State.pop
  split
  · rename_i h
    simp only [Option.some.injEq, Prod.mk.injEq]
    exact ⟨fun ⟨a, b⟩ => ⟨h, a.symm, b.symm⟩, fun ⟨_, a, b⟩ => ⟨a.symm, b.symm⟩⟩
  · rename_i h
    simp only [reduceCtorEq, false_iff]
    exact fun ⟨h', _⟩ => h h'

theorem State.pop_none {s : State} : s.pop = none ↔ s.sp.val = 0 := by
  unfold State.pop
  split
  · simp; omega
  · simp; omega

theorem State.push_of_lt {s : State} (v : Word) (h : s.sp.val < 16) :
    s.push v = some (s.setStack ⟨s.sp.val + 1, Nat.succ_lt_succ h⟩ (s.stack.set s.sp.val v h)) :=
  State.push_some.2 ⟨h, rfl⟩

theorem State.push_of_full {s : State} (v : Word) (h : ¬ s.sp.val < 16) : s.push v = none :=
  State.push_none.2 (by have := s.sp.isLt; omega)

theorem State.pop_of_pos {s : State} (h : 0 < s.sp.val) :
    s.pop = some (s.stack[s.sp.val - 1]'(by have := s.sp.isLt; omega),
      s.setStack ⟨s.sp.val - 1, by have := s.sp.isLt; omega⟩ s.stack) :=
  State.pop_some.2 ⟨h, rfl, rfl⟩

theorem State.pop_of_empty {s : State} (h : ¬ 0 < s.sp.val) : s.pop = none :=
  State.pop_none.2 (by omega)

/-! ### Block load of registers (R173) -/

/-- The block load writes the listed bytes from register `k` on and leaves the other registers alone. -/
theorem Regs.getElem_load (v : Regs) (k : Nat) (bs : List Byte) (r : Nat) (hr : r < 16) :
    (Regs.load v k bs)[r] = if k ≤ r then bs.getD (r - k) v[r] else v[r] := by
  induction bs generalizing v k with
  | nil => simp [Regs.load]
  | cons b bs ih =>
    rw [Regs.load, ih]
    rcases Nat.lt_trichotomy r k with h | rfl | h
    · rw [if_neg (by omega), if_neg (by omega), Vector.getElem_setIfInBounds_ne hr (by omega)]
    · rw [if_neg (by omega), if_pos (Nat.le_refl _), Nat.sub_self, List.getD_cons_zero,
        Vector.getElem_setIfInBounds_self]
    · rw [if_pos (show k + 1 ≤ r by omega), if_pos (show k ≤ r by omega),
        Vector.getElem_setIfInBounds_ne hr (by omega),
        show r - k = (r - (k + 1)) + 1 from by omega, List.getD_cons_succ]

theorem State.setRegs_getV (s : State) (v : Regs) (r : Nibble) :
    (s.setRegs v).getV r = v[r.toNat]'r.lt_sixteen := rfl

/-- A block load of V0 to VX, register by register. -/
theorem State.setRegs_load_getV (s : State) (x r : Nibble) (m : Memory) (a : Nat) :
    (s.setRegs (Regs.load s.v 0 (m.readBytes a (x.toNat + 1)))).getV r =
      if r.toNat ≤ x.toNat then m.read (a + r.toNat) else s.getV r := by
  rw [State.setRegs_getV, Regs.getElem_load, if_pos (Nat.zero_le _)]
  split
  · rw [List.getD_eq_getElem _ _ (by simp; omega), Memory.getElem_readBytes, Nat.sub_zero]
  · rw [List.getD_eq_default _ _ (by simp; omega)]; rfl

/-! ### Operands -/

theorem zextAddr_toNat (nnn : Addr12) : (zextAddr nnn).toNat = nnn.toNat := by
  simp only [zextAddr, BitVec.toNat_setWidth]
  exact Nat.mod_eq_of_lt (by have := nnn.isLt; omega)

theorem zextByte_toNat (b : Byte) : (zextByte b).toNat = b.toNat := by
  simp only [zextByte, BitVec.toNat_setWidth]
  exact Nat.mod_eq_of_lt (by have := b.isLt; omega)

theorem lowNibble_toNat (b : Byte) : (lowNibble b).toNat = b.toNat % 16 := by
  simp [lowNibble, BitVec.extractLsb'_toNat]

theorem jumpTarget_lt (s : State) (nnn : Addr12) : jumpTarget s nnn ≤ 0x10FE := by
  have h1 := nnn.isLt
  have h2 := (s.getV (jumpReg s nnn)).isLt
  unfold jumpTarget
  omega

@[simp] theorem length_bcdDigits (b : Byte) : (bcdDigits b).length = 3 := rfl

@[simp] theorem length_regBlock (s : State) (x : Nibble) : (regBlock s x).length = x.toNat + 1 := by
  have := x.lt_sixteen
  simp only [regBlock, List.length_take, Vector.length_toList]
  omega

/-- The `k`-th byte of a block store is `V[k]`. -/
theorem getElem_regBlock (s : State) (x : Nibble) (k : Nat) (h : k < (regBlock s x).length) :
    (regBlock s x)[k] = s.v[k]'(by have := x.lt_sixteen; rw [length_regBlock] at h; omega) := by
  simp [regBlock]

/-! ### Flags -/

theorem carryOut_iff (a b : Byte) : carryOut a b = true ↔ 255 < a.toNat + b.toNat := by
  simp [carryOut]

theorem noBorrow_iff (a b : Byte) : noBorrow a b = true ↔ b.toNat ≤ a.toNat := by
  simp [noBorrow]

/-- The flag is written last: register by register, what 8XY4 to 8XY7 and 8XYE leave (R100). -/
theorem writeResultFlag_getV (s : State) (x : Nibble) (r : Byte) (flag : Bool) (y : Nibble) :
    (writeResultFlag s x r flag).getV y =
      if y = 15#4 then (if flag then 1#8 else 0#8) else if y = x then r else s.getV y := by
  rw [writeResultFlag, State.advance_getV, State.setVF_getV, State.setV_getV]

/-- Register by register, what 8XY1 to 8XY3 leave (R103 to R105). -/
theorem writeLogic_getV (s : State) (x : Nibble) (r : Byte) (y : Nibble) :
    (writeLogic s x r).getV y =
      if s.q.logicResetVf = true ∧ y = 15#4 then 0#8 else if y = x then r else s.getV y := by
  rw [writeLogic, State.advance_getV]
  by_cases hq : s.q.logicResetVf = true
  · simp only [hq, if_true, true_and, State.setVF_getV, State.setV_getV]; rfl
  · simp [hq, State.setV_getV]

@[simp] theorem writeResultFlag_pc (s : State) (x : Nibble) (r : Byte) (flag : Bool) :
    (writeResultFlag s x r flag).pc = s.pc + 2#16 := rfl

@[simp] theorem writeLogic_pc (s : State) (x : Nibble) (r : Byte) :
    (writeLogic s x r).pc = s.pc + 2#16 := by
  unfold writeLogic; split <;> rfl

/-- A result with its flag changes registers and PC alone. -/
theorem writeResultFlag_frame (s : State) (x : Nibble) (r : Byte) (flag : Bool) :
    OnlyChanges [.regs] s (writeResultFlag s x r flag) := by
  intro p hp; cases p <;> simp [Part.same, writeResultFlag] at hp ⊢

/-- A logic result changes registers and PC alone. -/
theorem writeLogic_frame (s : State) (x : Nibble) (r : Byte) :
    OnlyChanges [.regs] s (writeLogic s x r) := by
  unfold writeLogic
  intro p hp
  split <;> cases p <;> simp [Part.same] at hp ⊢

end Sys2Proof.Machine
end

