-- ==== Sys2Proof/Laws/Display.lean ====
section
/-! SUPPORT. The laws of the display: what one toggle, one sprite row and one sprite do to a cell and to
the collision flag (44_random_display.md R151).  No pixel is toggled twice: the 8 columns of a row are
distinct modulo 64 and at most 32 rows are distinct modulo 32. -/

namespace Sys2Proof.Machine

@[simp] theorem Display.pixel_blank (x y : Nat) : Display.blank.pixel x y = false := by
  simp [Display.pixel, Display.blank]

/-- A location names the same cell as its wrapped form. -/
theorem Display.pixel_mod (d : Display) (x y : Nat) : d.pixel (x % 64) (y % 32) = d.pixel x y := by
  simp [Display.pixel]

theorem Display.pixel_congr (d : Display) {x x' y y' : Nat} (hx : x % 64 = x' % 64)
    (hy : y % 32 = y' % 32) : d.pixel x y = d.pixel x' y' := by
  rw [← d.pixel_mod x, ← d.pixel_mod x', hx, hy]

/-- A toggle turns its own cell over. -/
theorem Display.pixel_toggle_same (d : Display) {x y px py : Nat} (hx : px % 64 = x % 64)
    (hy : py % 32 = y % 32) : (d.toggle x y).pixel px py = !d.pixel px py := by
  simp [Display.toggle, Display.pixel, hx, hy]

/-- A toggle leaves every other cell alone. -/
theorem Display.pixel_toggle_other (d : Display) {x y px py : Nat}
    (h : ¬ (px % 64 = x % 64 ∧ py % 32 = y % 32)) : (d.toggle x y).pixel px py = d.pixel px py := by
  by_cases hy : py % 32 = y % 32
  · have hx : x % 64 ≠ px % 64 := fun e => h ⟨e.symm, hy⟩
    simp [Display.toggle, Display.pixel, hy, hx]
  · simp [Display.toggle, Display.pixel, Ne.symm hy]

/-- Displays with the same cells are the same. -/
theorem Display.eq_of_pixel {d e : Display} (h : ∀ x y, d.pixel x y = e.pixel x y) : d = e := by
  refine Vector.ext fun y hy => Vector.ext fun x hx => ?_
  have := h x y
  simpa only [Display.pixel, Nat.mod_eq_of_lt hx, Nat.mod_eq_of_lt hy] using this

/-! ### One sprite row -/

/-- The row `b` at `(x0, y)` has a 1 bit on the cell `(px, py)`. -/
def RowHits (x0 y : Nat) (b : Byte) (px py : Nat) : Prop :=
  py % 32 = y % 32 ∧ ∃ col, col < 8 ∧ px % 64 = (x0 + col) % 64 ∧ b.getLsbD (7 - col) = true

/-- The columns of `cols` drawn one after the other, when no two of them are the same cell. -/
theorem foldl_plot (x0 y : Nat) (b : Byte) (cols : List Nat)
    (hd : cols.Pairwise fun i j => (x0 + i) % 64 ≠ (x0 + j) % 64) (c : Display × Bool) (px py : Nat) :
    let r := cols.foldl (fun c col => if b.getLsbD (7 - col) then plot c (x0 + col) y else c) c
    let hit := py % 32 = y % 32 ∧ ∃ col ∈ cols, px % 64 = (x0 + col) % 64 ∧ b.getLsbD (7 - col) = true
    (hit → r.1.pixel px py = !c.1.pixel px py) ∧ (¬ hit → r.1.pixel px py = c.1.pixel px py) ∧
      (r.2 = true ↔ c.2 = true ∨
        ∃ col ∈ cols, b.getLsbD (7 - col) = true ∧ c.1.pixel (x0 + col) y = true) := by
  induction cols generalizing c with
  | nil => simp
  | cons k cols ih =>
    obtain ⟨hk, hd'⟩ := List.pairwise_cons.1 hd
    simp only [List.foldl_cons]
    by_cases hb : b.getLsbD (7 - k) = true
    · simp only [hb, if_true]
      obtain ⟨h1, h2, h3⟩ := ih hd' (plot c (x0 + k) y)
      refine ⟨?_, ?_, ?_⟩
      · rintro ⟨hy, col, hmem, hx, hbit⟩
        rcases List.mem_cons.1 hmem with rfl | hmem
        · rw [h2, plot, Display.pixel_toggle_same _ hx hy]
          rintro ⟨-, j, hj, hjx, -⟩
          exact hk j hj (hx.symm.trans hjx)
        · rw [h1 ⟨hy, col, hmem, hx, hbit⟩, plot, Display.pixel_toggle_other]
          rintro ⟨hx', -⟩
          exact hk col hmem (hx'.symm.trans hx)
      · intro hn
        rw [h2, plot, Display.pixel_toggle_other]
        · rintro ⟨hx, hy⟩
          exact hn ⟨hy, k, List.mem_cons_self, hx, hb⟩
        · rintro ⟨hy, col, hmem, hx, hbit⟩
          exact hn ⟨hy, col, List.mem_cons_of_mem _ hmem, hx, hbit⟩
      · rw [h3]
        have hother : ∀ col ∈ cols,
            (plot c (x0 + k) y).1.pixel (x0 + col) y = c.1.pixel (x0 + col) y := fun col hmem =>
          Display.pixel_toggle_other _ fun ⟨hx, _⟩ => hk col hmem hx.symm
        constructor
        · rintro (h | ⟨col, hmem, hbit, hp⟩)
          · rcases Bool.or_eq_true_iff.1 h with h | h
            · exact .inl h
            · exact .inr ⟨k, List.mem_cons_self, hb, h⟩
          · exact .inr ⟨col, List.mem_cons_of_mem _ hmem, hbit, (hother col hmem) ▸ hp⟩
        · rintro (h | ⟨col, hmem, hbit, hp⟩)
          · exact .inl (Bool.or_eq_true_iff.2 (.inl h))
          · rcases List.mem_cons.1 hmem with rfl | hmem
            · exact .inl (Bool.or_eq_true_iff.2 (.inr hp))
            · exact .inr ⟨col, hmem, hbit, (hother col hmem).trans hp⟩
    · simp only [hb, Bool.false_eq_true, if_false]
      obtain ⟨h1, h2, h3⟩ := ih hd' c
      refine ⟨?_, ?_, ?_⟩
      · rintro ⟨hy, col, hmem, hx, hbit⟩
        rcases List.mem_cons.1 hmem with rfl | hmem
        · exact absurd hbit hb
        · exact h1 ⟨hy, col, hmem, hx, hbit⟩
      · intro hn
        exact h2 fun ⟨hy, col, hmem, hx, hbit⟩ => hn ⟨hy, col, List.mem_cons_of_mem _ hmem, hx, hbit⟩
      · rw [h3]
        constructor
        · rintro (h | ⟨col, hmem, h⟩)
          · exact .inl h
          · exact .inr ⟨col, List.mem_cons_of_mem _ hmem, h⟩
        · rintro (h | ⟨col, hmem, hbit, hp⟩)
          · exact .inl h
          · rcases List.mem_cons.1 hmem with rfl | hmem
            · exact absurd hbit hb
            · exact .inr ⟨col, hmem, hbit, hp⟩

/-- One row: its 1 bits turn their cells over, every other cell is kept, and a lit cell turned over is a
collision. -/
theorem drawRow_spec (x0 y : Nat) (b : Byte) (c : Display × Bool) (px py : Nat) :
    (RowHits x0 y b px py → (drawRow x0 y b c).1.pixel px py = !c.1.pixel px py) ∧
    (¬ RowHits x0 y b px py → (drawRow x0 y b c).1.pixel px py = c.1.pixel px py) ∧
    ((drawRow x0 y b c).2 = true ↔ c.2 = true ∨
      ∃ col, col < 8 ∧ b.getLsbD (7 - col) = true ∧ c.1.pixel (x0 + col) y = true) := by
  have hd : (List.range 8).Pairwise fun i j => (x0 + i) % 64 ≠ (x0 + j) % 64 :=
    List.Pairwise.imp_of_mem (R := (· < ·)) (fun hi hj h => by
      have := List.mem_range.1 hi
      have := List.mem_range.1 hj
      omega) List.pairwise_lt_range
  obtain ⟨h1, h2, h3⟩ := foldl_plot x0 y b (List.range 8) hd c px py
  simp only [List.mem_range] at h1 h2 h3
  exact ⟨h1, h2, h3⟩

/-! ### A whole sprite -/

/-- The sprite `bs` at `(x0, y)` has a 1 bit on the cell `(px, py)`. -/
def SpriteHits (x0 y : Nat) (bs : List Byte) (px py : Nat) : Prop :=
  ∃ row, ∃ h : row < bs.length, RowHits x0 (y + row) bs[row] px py

theorem spriteHits_cons (x0 y : Nat) (b : Byte) (bs : List Byte) (px py : Nat) :
    SpriteHits x0 y (b :: bs) px py ↔ RowHits x0 y b px py ∨ SpriteHits x0 (y + 1) bs px py := by
  constructor
  · rintro ⟨row, h, hr⟩
    cases row with
    | zero => exact .inl hr
    | succ row =>
      refine .inr ⟨row, by simpa using h, ?_⟩
      rwa [show y + 1 + row = y + (row + 1) from by omega]
  · rintro (hr | ⟨row, h, hr⟩)
    · exact ⟨0, by simp, hr⟩
    · refine ⟨row + 1, by simpa using h, ?_⟩
      rwa [show y + 1 + row = y + (row + 1) from by omega] at hr

/-- A sprite of at most 32 rows: its 1 bits turn their cells over once each, every other cell is kept, and
the collision flag says whether one of them was lit before. -/
theorem drawSprite_spec (x0 y : Nat) (bs : List Byte) (hlen : bs.length ≤ 32) (c : Display × Bool)
    (px py : Nat) :
    (SpriteHits x0 y bs px py → (drawSprite x0 y bs c).1.pixel px py = !c.1.pixel px py) ∧
    (¬ SpriteHits x0 y bs px py → (drawSprite x0 y bs c).1.pixel px py = c.1.pixel px py) ∧
    ((drawSprite x0 y bs c).2 = true ↔ c.2 = true ∨
      ∃ row, ∃ h : row < bs.length, ∃ col, col < 8 ∧ bs[row].getLsbD (7 - col) = true ∧
        c.1.pixel (x0 + col) (y + row) = true) := by
  induction bs generalizing y c with
  | nil =>
    refine ⟨fun ⟨_, h, _⟩ => absurd h (Nat.not_lt_zero _), fun _ => rfl, ?_⟩
    simp [drawSprite]
  | cons b bs ih =>
    rw [List.length_cons] at hlen
    have key := drawRow_spec x0 y b c
    obtain ⟨h1, h2, h3⟩ := ih (y + 1) (by omega) (drawRow x0 y b c)
    have hrow : ∀ row, row < bs.length → (y + 1 + row) % 32 ≠ y % 32 := by
      intro row h; omega
    rw [drawSprite, spriteHits_cons]
    refine ⟨?_, ?_, ?_⟩
    · rintro (hr | hs)
      · rw [h2, (key px py).1 hr]
        rintro ⟨row, h, hr', -⟩
        exact hrow row h (hr'.symm.trans hr.1)
      · rw [h1 hs, (key px py).2.1]
        rintro ⟨hy, -⟩
        obtain ⟨row, h, hr', -⟩ := hs
        exact hrow row h (hr'.symm.trans hy)
    · intro hn
      rw [h2 fun h => hn (.inr h), (key px py).2.1 fun h => hn (.inl h)]
    · have hkeep : ∀ row, row < bs.length → ∀ x,
          (drawRow x0 y b c).1.pixel x (y + 1 + row) = c.1.pixel x (y + 1 + row) := fun row h x =>
        (key _ _).2.1 fun hr => hrow row h hr.1
      rw [h3, (key px py).2.2]
      constructor
      · rintro ((h | ⟨col, hc, hbit, hp⟩) | ⟨row, h, col, hc, hbit, hp⟩)
        · exact .inl h
        · exact .inr ⟨0, by simp, col, hc, hbit, hp⟩
        · rw [hkeep row h] at hp
          refine .inr ⟨row + 1, by simpa using h, col, hc, hbit, ?_⟩
          rwa [show y + (row + 1) = y + 1 + row from by omega]
      · rintro (h | ⟨row, h, col, hc, hbit, hp⟩)
        · exact .inl (.inl h)
        · cases row with
          | zero => exact .inl (.inr ⟨col, hc, hbit, hp⟩)
          | succ row =>
            have h' : row < bs.length := by simpa using h
            refine .inr ⟨row, h', col, hc, hbit, ?_⟩
            rw [hkeep row h']
            rwa [show y + 1 + row = y + (row + 1) from by omega]

end Sys2Proof.Machine
end

