-- ==== Sys2Proof/Laws/PerInstr.lean ====
section
/-! SUPPORT. A statement for every instruction as syntax: its word lies in its own row of the opcode table,
that is `op & mask = match` with the row's mask and match (30_encoding.md R80). -/

namespace Sys2Proof.Laws.EncodeRow

/-- The `mask` of the instruction's row (R80). -/
def rowMask : Instr → Word
  | .cls | .ret => 0xFFFF#16
  | .sys _ | .jp _ | .call _ | .seImm _ _ | .sneImm _ _ | .ldImm _ _ | .addImm _ _ | .ldI _ | .jpV0 _
  | .rnd _ _ | .drw _ _ _ => 0xF000#16
  | .seReg _ _ | .ldReg _ _ | .orReg _ _ | .andReg _ _ | .xorReg _ _ | .addReg _ _ | .subReg _ _
  | .shrReg _ _ | .subnReg _ _ | .shlReg _ _ | .sneReg _ _ => 0xF00F#16
  | .skp _ | .sknp _ | .ldFromDt _ | .ldKey _ | .ldDt _ | .ldSt _ | .addI _ | .ldFont _ | .ldBcd _
  | .storeRegs _ | .loadRegs _ => 0xF0FF#16

/-- The `match` of the instruction's row (R80). -/
def rowMatch : Instr → Word
  | .cls => 0x00E0#16
  | .ret => 0x00EE#16
  | .sys _ => 0x0000#16
  | .jp _ => 0x1000#16
  | .call _ => 0x2000#16
  | .seImm _ _ => 0x3000#16
  | .sneImm _ _ => 0x4000#16
  | .seReg _ _ => 0x5000#16
  | .ldImm _ _ => 0x6000#16
  | .addImm _ _ => 0x7000#16
  | .ldReg _ _ => 0x8000#16
  | .orReg _ _ => 0x8001#16
  | .andReg _ _ => 0x8002#16
  | .xorReg _ _ => 0x8003#16
  | .addReg _ _ => 0x8004#16
  | .subReg _ _ => 0x8005#16
  | .shrReg _ _ => 0x8006#16
  | .subnReg _ _ => 0x8007#16
  | .shlReg _ _ => 0x800E#16
  | .sneReg _ _ => 0x9000#16
  | .ldI _ => 0xA000#16
  | .jpV0 _ => 0xB000#16
  | .rnd _ _ => 0xC000#16
  | .drw _ _ _ => 0xD000#16
  | .skp _ => 0xE09E#16
  | .sknp _ => 0xE0A1#16
  | .ldFromDt _ => 0xF007#16
  | .ldKey _ => 0xF00A#16
  | .ldDt _ => 0xF015#16
  | .ldSt _ => 0xF018#16
  | .addI _ => 0xF01E#16
  | .ldFont _ => 0xF029#16
  | .ldBcd _ => 0xF033#16
  | .storeRegs _ => 0xF055#16
  | .loadRegs _ => 0xF065#16

/-- The instruction's word lies in its row. -/
def Statement (i : Instr) : Prop := encode i &&& rowMask i = rowMatch i

/-! ### One lemma per format -/

theorem encodeNNN_row (m : Word) (a : Addr12) : encodeNNN m a &&& 0xF000#16 = m &&& 0xF000#16 := by
  ext k hk; simp [encodeNNN]; interval_cases k <;> simp

theorem encodeXKK_row (m : Word) (x : Nibble) (b : Byte) :
    encodeXKK m x b &&& 0xF000#16 = m &&& 0xF000#16 := by
  ext k hk; simp [encodeXKK]; interval_cases k <;> simp

theorem encodeXYN_row (m : Word) (x y n : Nibble) :
    encodeXYN m x y n &&& 0xF000#16 = m &&& 0xF000#16 := by
  ext k hk; simp [encodeXYN]; interval_cases k <;> simp

theorem encodeXY_row (m : Word) (x y : Nibble) :
    encodeXY m x y &&& 0xF00F#16 = m &&& 0xF00F#16 := by
  ext k hk; simp [encodeXY]; interval_cases k <;> simp

theorem encodeX_row (m : Word) (x : Nibble) : encodeX m x &&& 0xF0FF#16 = m &&& 0xF0FF#16 := by
  ext k hk; simp [encodeX]; interval_cases k <;> simp

/-! ### One lemma per instruction -/

theorem cls : Statement .cls := rfl

theorem ret : Statement .ret := rfl

theorem sys (nnn : Addr12) : Statement (.sys nnn) := encodeNNN_row _ nnn

theorem jp (nnn : Addr12) : Statement (.jp nnn) := encodeNNN_row _ nnn

theorem call (nnn : Addr12) : Statement (.call nnn) := encodeNNN_row _ nnn

theorem seImm (x : Nibble) (kk : Byte) : Statement (.seImm x kk) := encodeXKK_row _ x kk

theorem sneImm (x : Nibble) (kk : Byte) : Statement (.sneImm x kk) := encodeXKK_row _ x kk

theorem seReg (x y : Nibble) : Statement (.seReg x y) := encodeXY_row _ x y

theorem ldImm (x : Nibble) (kk : Byte) : Statement (.ldImm x kk) := encodeXKK_row _ x kk

theorem addImm (x : Nibble) (kk : Byte) : Statement (.addImm x kk) := encodeXKK_row _ x kk

theorem ldReg (x y : Nibble) : Statement (.ldReg x y) := encodeXY_row _ x y

theorem orReg (x y : Nibble) : Statement (.orReg x y) := encodeXY_row _ x y

theorem andReg (x y : Nibble) : Statement (.andReg x y) := encodeXY_row _ x y

theorem xorReg (x y : Nibble) : Statement (.xorReg x y) := encodeXY_row _ x y

theorem addReg (x y : Nibble) : Statement (.addReg x y) := encodeXY_row _ x y

theorem subReg (x y : Nibble) : Statement (.subReg x y) := encodeXY_row _ x y

theorem shrReg (x y : Nibble) : Statement (.shrReg x y) := encodeXY_row _ x y

theorem subnReg (x y : Nibble) : Statement (.subnReg x y) := encodeXY_row _ x y

theorem shlReg (x y : Nibble) : Statement (.shlReg x y) := encodeXY_row _ x y

theorem sneReg (x y : Nibble) : Statement (.sneReg x y) := encodeXY_row _ x y

theorem ldI (nnn : Addr12) : Statement (.ldI nnn) := encodeNNN_row _ nnn

theorem jpV0 (nnn : Addr12) : Statement (.jpV0 nnn) := encodeNNN_row _ nnn

theorem rnd (x : Nibble) (kk : Byte) : Statement (.rnd x kk) := encodeXKK_row _ x kk

theorem drw (x y n : Nibble) : Statement (.drw x y n) := encodeXYN_row _ x y n

theorem skp (x : Nibble) : Statement (.skp x) := encodeX_row _ x

theorem sknp (x : Nibble) : Statement (.sknp x) := encodeX_row _ x

theorem ldFromDt (x : Nibble) : Statement (.ldFromDt x) := encodeX_row _ x

theorem ldKey (x : Nibble) : Statement (.ldKey x) := encodeX_row _ x

theorem ldDt (x : Nibble) : Statement (.ldDt x) := encodeX_row _ x

theorem ldSt (x : Nibble) : Statement (.ldSt x) := encodeX_row _ x

theorem addI (x : Nibble) : Statement (.addI x) := encodeX_row _ x

theorem ldFont (x : Nibble) : Statement (.ldFont x) := encodeX_row _ x

theorem ldBcd (x : Nibble) : Statement (.ldBcd x) := encodeX_row _ x

theorem storeRegs (x : Nibble) : Statement (.storeRegs x) := encodeX_row _ x

theorem loadRegs (x : Nibble) : Statement (.loadRegs x) := encodeX_row _ x

end Sys2Proof.Laws.EncodeRow
end

