-- ==== Sys2Proof/Laws/Step.lean ====
section
/-! SUPPORT. What the fetch can do, said once, and the frames of the three updates that end most
instructions: a register write with the advance, a skip, a jump. -/

namespace Sys2Proof.Machine

/-! ### Fetch -/

theorem fetchWord_ok {s : State} (h : s.pc.toNat + 1 < 4096) : fetchWord s = .ok s.wordAtPc :=
  memRead2_ok h

theorem fetchWord_error {s : State} (h : ¬ s.pc.toNat + 1 < 4096) :
    fetchWord s = .error (.memoryOutOfBounds s.pc.toNat) := memRead2_error h

/-! ### Frames -/

theorem setV_advance_frame (s : State) (x : Nibble) (b : Byte) :
    OnlyChanges [.regs] s (s.setV x b).advance := by
  intro p hp
  cases p <;> simp [Part.same] at hp ⊢

theorem setV_advance_regs (s : State) (x : Nibble) (b : Byte) :
    SameRegsExcept [x] s (s.setV x b).advance := by
  intro r hr
  simp at hr
  simp [State.setV_getV, hr]

theorem setPc_frame (s : State) (t : Word) : OnlyChanges [] s (s.setPc t) := by
  intro p _
  cases p <;> simp [Part.same]

theorem skipIf_frame (s : State) (c : Bool) : OnlyChanges [] s (s.skipIf c) := setPc_frame s _

theorem setI_advance_frame (s : State) (a : Word) : OnlyChanges [.index] s (s.setI a).advance := by
  intro p hp
  cases p <;> simp [Part.same] at hp ⊢

/-! ### Schedules -/

/-- A schedule goes on from where its first part ends. -/
theorem runSchedule_append {os os' : List Op} {s t : State} (h : runSchedule os s = .next t) :
    runSchedule (os ++ os') s = runSchedule os' t := by
  induction os generalizing s with
  | nil => cases h; rfl
  | cons o os ih =>
    simp only [List.cons_append, runSchedule] at h ⊢
    cases hh : operate o s <;> rw [hh] at h <;> first | exact ih h | cases h

end Sys2Proof.Machine
end

