-- ==== Sys2Proof/Tests/Slice0.lean ====
section
/-! SUPPORT. Tests of the model: refused terms, decoding of words written out from the spec, one-step vectors
from 95_test_vectors.md (its part and row are named), and for every statement with hypotheses a concrete
input that meets them. -/

namespace Sys2Proof.Tests

open Sys2Proof Sys2Proof.Machine

/-! ### Helpers -/

/-- The reset state with some registers set. -/
def regs (l : List (Nibble × Byte)) : State := l.foldl (fun s p => s.setV p.1 p.2) State.reset

/-- Some bytes stored at an address. -/
def put (s : State) (a : Nat) (bs : List Byte) : State := s.setMem (s.mem.writeBytes a bs)

/-- The quirks `Q = (a, b, c)` of 95_test_vectors.md. -/
def withQ (s : State) (a b c : Bool) : State :=
  opSetQuirks { logicResetVf := a, shiftUsesVy := b, blockIncrI := c } s

/-- One step on the word `w` placed at PC. -/
def stepOn (w : Nat) (s : State) : Host.Outcome State Fault Refusal := step (s.withFetchWord 16 w)

/-- The outcome is a next state of which `p` holds. -/
def nextHas (o : Host.Outcome State Fault Refusal) (p : State → Bool) : Bool :=
  match o with
  | .next t => p t
  | .fault _ => false
  | .refused _ => false

/-- The outcome is this fault. -/
def faultIs (o : Host.Outcome State Fault Refusal) (f : Fault) : Bool :=
  match o with
  | .next _ => false
  | .fault g => g == f
  | .refused _ => false

/-- The decoder reads this instruction. -/
def reads (w : Nat) (i : Instr) : Bool := decodeTableWord 16 w == some i

/-- The cells of `on` are lit and those of `off` are not. -/
def lit (s : State) (on off : List (Nat × Nat)) : Bool :=
  (on.all fun c => s.disp.pixel c.1 c.2) && off.all fun c => !s.disp.pixel c.1 c.2

theorem next_of_nextHas {o : Host.Outcome State Fault Refusal} {p : State → Bool}
    (h : nextHas o p = true) : ∃ t, o = .next t ∧ p t = true := by
  cases o with
  | next t => exact ⟨t, rfl, h⟩
  | fault f => exact absurd h (by simp [nextHas])
  | refused r => exact absurd h (by simp [nextHas])

theorem fault_of_faultIs {o : Host.Outcome State Fault Refusal} {f : Fault}
    (h : faultIs o f = true) : o = .fault f := by
  cases o with
  | next t => exact absurd h (by simp [faultIs])
  | fault g => exact congrArg _ (eq_of_beq h)
  | refused r => exact absurd h (by simp [faultIs])

/-! ### WellFormed refuses (30_encoding.md R79: the words 00E0 and 00EE are CLS and RET) -/

theorem test_wf_refuses_sys_0E0 : (Instr.sys 0x0E0#12).wellFormed = false := by decide
theorem test_wf_refuses_sys_0EE : (Instr.sys 0x0EE#12).wellFormed = false := by decide
theorem test_wf_accepts_sys_0E1 : (Instr.sys 0x0E1#12).wellFormed = true := by decide

/-! ### Decoding, from the patterns of 30_encoding.md R80 and 95_test_vectors.md 2.14 -/

theorem test_decode_family_0 : (reads 0x00E0 .cls && reads 0x00EE .ret && reads 0x0123 (.sys 0x123#12)) = true := by
  decide
theorem test_decode_flow : (reads 0x1000 (.jp 0x000#12) && reads 0x2FFE (.call 0xFFE#12) &&
    reads 0xB300 (.jpV0 0x300#12)) = true := by decide
theorem test_decode_skips : (reads 0x3FFF (.seImm 0xF#4 0xFF#8) && reads 0x4000 (.sneImm 0x0#4 0x00#8) &&
    reads 0x5120 (.seReg 0x1#4 0x2#4) && reads 0x9010 (.sneReg 0x0#4 0x1#4)) = true := by decide
theorem test_decode_immediate : (reads 0x6A2B (.ldImm 0xA#4 0x2B#8) && reads 0x7302 (.addImm 0x3#4 0x02#8)) = true := by
  decide
theorem test_decode_logic : (reads 0x8120 (.ldReg 0x1#4 0x2#4) && reads 0x8121 (.orReg 0x1#4 0x2#4) &&
    reads 0x8122 (.andReg 0x1#4 0x2#4) && reads 0x8123 (.xorReg 0x1#4 0x2#4)) = true := by decide
theorem test_decode_arith : (reads 0x8454 (.addReg 0x4#4 0x5#4) && reads 0x8125 (.subReg 0x1#4 0x2#4) &&
    reads 0x8346 (.shrReg 0x3#4 0x4#4) && reads 0x8127 (.subnReg 0x1#4 0x2#4) &&
    reads 0x834E (.shlReg 0x3#4 0x4#4)) = true := by decide
theorem test_decode_index_random_draw : (reads 0xAFFF (.ldI 0xFFF#12) && reads 0xC50F (.rnd 0x5#4 0x0F#8) &&
    reads 0xD125 (.drw 0x1#4 0x2#4 0x5#4)) = true := by decide
theorem test_decode_keys : (reads 0xEF9E (.skp 0xF#4) && reads 0xE0A1 (.sknp 0x0#4)) = true := by decide
theorem test_decode_misc : (reads 0xF407 (.ldFromDt 0x4#4) && reads 0xF00A (.ldKey 0x0#4) &&
    reads 0xF415 (.ldDt 0x4#4) && reads 0xF418 (.ldSt 0x4#4) && reads 0xF11E (.addI 0x1#4)) = true := by decide
theorem test_decode_memory : (reads 0xF229 (.ldFont 0x2#4) && reads 0xF133 (.ldBcd 0x1#4) &&
    reads 0xF355 (.storeRegs 0x3#4) && reads 0xFF65 (.loadRegs 0xF#4)) = true := by decide

/-- The illegal words of 95_test_vectors.md 2.14, those of family 0 aside. -/
theorem test_decode_illegal : ([0x5001, 0x500F, 0x5AB8, 0x8008, 0x8009, 0x800A, 0x800B, 0x800C, 0x800D, 0x800F,
    0x8AB9, 0x9001, 0x9ABF, 0xE000, 0xE09D, 0xE09F, 0xE0A0, 0xE0A2, 0xEFFF, 0xF000, 0xF006, 0xF008, 0xF009,
    0xF00B, 0xF014, 0xF016, 0xF017, 0xF019, 0xF01D, 0xF01F, 0xF028, 0xF02A, 0xF030, 0xF032, 0xF034, 0xF054,
    0xF056, 0xF064, 0xF066, 0xF075, 0xF085, 0xFFFF].all fun w => decodeTableWord 16 w == none) = true := by decide

/-- The words of family 0 that 2.14 lists as raising `UnknownOpcode` all fault so. -/
theorem test_sys_words_fault : ([0x0000, 0x0001, 0x00E1, 0x00ED, 0x00EF, 0x00FF, 0x0FFF].all fun w =>
    faultIs (stepOn w State.reset) (.unknownOpcode (BitVec.ofNat 16 w))) = true := by decide

theorem test_encode_words : encode (.ldImm 0xA#4 0x2B#8) = 0x6A2B#16 ∧ encode (.drw 0x1#4 0x2#4 0x5#4) = 0xD125#16 ∧
    encode (.subnReg 0x1#4 0x2#4) = 0x8127#16 ∧ encode (.loadRegs 0x2#4) = 0xF265#16 := by decide

theorem test_decode_one_byte : decodeBytes [0x60#8] = .error .truncated := by decide

/-! ### Immediate, copy, logic (95_test_vectors.md 2.1, 2.2) -/

theorem test_ldImm : nextHas (stepOn 0x6A2B State.reset) (fun t => t.getV 0xA#4 == 0x2B#8 && t.pc == 0x202#16) = true := by
  decide
theorem test_addImm_wraps : nextHas (stepOn 0x7302 (regs [(0x3#4, 0xFF#8), (0xF#4, 0x55#8)]))
    (fun t => t.getV 0x3#4 == 0x01#8 && t.getV 0xF#4 == 0x55#8) = true := by decide
theorem test_addImm_vf : nextHas (stepOn 0x7F01 (regs [(0xF#4, 0xFF#8)])) (fun t => t.getV 0xF#4 == 0x00#8) = true := by
  decide
theorem test_ldReg : nextHas (stepOn 0x8120 (regs [(0x2#4, 0x7E#8)]))
    (fun t => t.getV 0x1#4 == 0x7E#8 && t.getV 0x2#4 == 0x7E#8) = true := by decide
theorem test_or_quirk_off : nextHas (stepOn 0x8F21 (regs [(0xF#4, 0x0F#8), (0x2#4, 0xF0#8)]))
    (fun t => t.getV 0xF#4 == 0xFF#8) = true := by decide
theorem test_or_quirk_on : nextHas (stepOn 0x8F21 (withQ (regs [(0xF#4, 0x0F#8), (0x2#4, 0xF0#8)]) true false false))
    (fun t => t.getV 0xF#4 == 0x00#8) = true := by decide
theorem test_and_quirk_off : nextHas (stepOn 0x8122 (regs [(0x1#4, 0x3C#8), (0x2#4, 0x0F#8), (0xF#4, 0x01#8)]))
    (fun t => t.getV 0x1#4 == 0x0C#8 && t.getV 0xF#4 == 0x01#8) = true := by decide
theorem test_and_quirk_on :
    nextHas (stepOn 0x8122 (withQ (regs [(0x1#4, 0x3C#8), (0x2#4, 0x0F#8), (0xF#4, 0x01#8)]) true false false))
      (fun t => t.getV 0x1#4 == 0x0C#8 && t.getV 0xF#4 == 0x00#8) = true := by decide
theorem test_xor_quirk_off : nextHas (stepOn 0x8123 (regs [(0x1#4, 0xFF#8), (0x2#4, 0x0F#8), (0xF#4, 0x01#8)]))
    (fun t => t.getV 0x1#4 == 0xF0#8 && t.getV 0xF#4 == 0x01#8) = true := by decide
theorem test_xor_quirk_on :
    nextHas (stepOn 0x8123 (withQ (regs [(0x1#4, 0xFF#8), (0x2#4, 0x0F#8), (0xF#4, 0x01#8)]) true false false))
      (fun t => t.getV 0x1#4 == 0xF0#8 && t.getV 0xF#4 == 0x00#8) = true := by decide

/-! ### Add, subtract, shift (95_test_vectors.md 2.3, 2.4) -/

theorem test_add_carry : nextHas (stepOn 0x8454 (regs [(0x4#4, 0xC8#8), (0x5#4, 0x64#8)]))
    (fun t => t.getV 0x4#4 == 0x2C#8 && t.getV 0xF#4 == 0x01#8) = true := by decide
theorem test_add_flag_last : nextHas (stepOn 0x8F14 (regs [(0xF#4, 0x05#8), (0x1#4, 0x03#8)]))
    (fun t => t.getV 0xF#4 == 0x00#8) = true := by decide
theorem test_sub_borrow : nextHas (stepOn 0x8125 (regs [(0x1#4, 0x10#8), (0x2#4, 0x20#8), (0xF#4, 0x01#8)]))
    (fun t => t.getV 0x1#4 == 0xF0#8 && t.getV 0xF#4 == 0x00#8) = true := by decide
theorem test_sub_equal : nextHas (stepOn 0x8125 (regs [(0x1#4, 0x33#8), (0x2#4, 0x33#8)]))
    (fun t => t.getV 0x1#4 == 0x00#8 && t.getV 0xF#4 == 0x01#8) = true := by decide
theorem test_subn : nextHas (stepOn 0x8127 (regs [(0x1#4, 0x10#8), (0x2#4, 0x20#8)]))
    (fun t => t.getV 0x1#4 == 0x10#8 && t.getV 0xF#4 == 0x01#8) = true := by decide
theorem test_subn_borrow : nextHas (stepOn 0x8127 (regs [(0x1#4, 0x20#8), (0x2#4, 0x10#8), (0xF#4, 0x01#8)]))
    (fun t => t.getV 0x1#4 == 0xF0#8 && t.getV 0xF#4 == 0x00#8) = true := by decide
theorem test_shr_quirk_off : nextHas (stepOn 0x8346 (regs [(0x3#4, 0x81#8), (0x4#4, 0x05#8)]))
    (fun t => t.getV 0x3#4 == 0x40#8 && t.getV 0xF#4 == 0x01#8 && t.getV 0x4#4 == 0x05#8) = true := by decide
theorem test_shr_quirk_on : nextHas (stepOn 0x83F6 (withQ (regs [(0x3#4, 0x55#8), (0xF#4, 0x03#8)]) false true false))
    (fun t => t.getV 0x3#4 == 0x01#8 && t.getV 0xF#4 == 0x01#8) = true := by decide
theorem test_shl_quirk_off : nextHas (stepOn 0x834E (regs [(0x3#4, 0x40#8), (0x4#4, 0x05#8), (0xF#4, 0x01#8)]))
    (fun t => t.getV 0x3#4 == 0x80#8 && t.getV 0xF#4 == 0x00#8) = true := by decide
theorem test_shl_quirk_on : nextHas (stepOn 0x834E (withQ (regs [(0x3#4, 0xFF#8), (0x4#4, 0x80#8)]) false true false))
    (fun t => t.getV 0x3#4 == 0x00#8 && t.getV 0xF#4 == 0x01#8 && t.getV 0x4#4 == 0x80#8) = true := by decide

/-! ### Skips (95_test_vectors.md 2.5) -/

theorem test_seImm : nextHas (stepOn 0x302A (regs [(0x0#4, 0x2A#8)])) (fun t => t.pc == 0x204#16) = true := by decide
theorem test_seImm_past_the_end : nextHas (stepOn 0x3000 (State.reset.setPc 0xFFE#16)) (fun t =>
    t.pc == 0x1002#16 && faultIs (step t) (.memoryOutOfBounds 0x1002)) = true := by decide
theorem test_sneImm : nextHas (stepOn 0x402A (regs [(0x0#4, 0x2A#8)])) (fun t => t.pc == 0x202#16) = true := by decide
theorem test_seReg : nextHas (stepOn 0x5120 (regs [(0x1#4, 0x07#8), (0x2#4, 0x07#8)])) (fun t => t.pc == 0x204#16) = true := by
  decide
theorem test_seReg_differ : nextHas (stepOn 0x5120 (regs [(0x1#4, 0x07#8), (0x2#4, 0x08#8)]))
    (fun t => t.pc == 0x202#16) = true := by decide
theorem test_sneReg : nextHas (stepOn 0x9120 (regs [(0x1#4, 0x07#8), (0x2#4, 0x08#8)])) (fun t => t.pc == 0x204#16) = true := by
  decide
theorem test_sneReg_same : nextHas (stepOn 0x9110 (regs [(0x1#4, 0x07#8)])) (fun t => t.pc == 0x202#16) = true := by decide
theorem test_illegal_5121 : faultIs (stepOn 0x5121 State.reset) (.unknownOpcode 0x5121#16) = true := by decide

/-! ### Jump, call, return (95_test_vectors.md 2.6) -/

/-- The reset state at `pc` with `sp` return addresses held, the newest `v`. -/
def calls (pc : Word) (sp : Fin 17) (v : Word) : State :=
  (State.reset.setPc pc).setStack sp (Vector.replicate 16 v)

theorem test_jp : nextHas (stepOn 0x1FFE State.reset) (fun t => t.pc == 0xFFE#16) = true := by decide
theorem test_jp_bounds_first : (faultIs (stepOn 0x1FFF State.reset) (.memoryOutOfBounds 0xFFF) &&
    faultIs (stepOn 0x1201 State.reset) (.misalignedPC 0x201)) = true := by decide
theorem test_jpV0 : (nextHas (stepOn 0xB300 (regs [(0x0#4, 0x04#8)])) (fun t => t.pc == 0x304#16) &&
    nextHas (stepOn 0xB300 { regs [(0x0#4, 0x04#8), (0x3#4, 0x08#8)] with qJumpVx := true })
      (fun t => t.pc == 0x308#16)) = true := by decide
theorem test_jpV0_no_wrap : (faultIs (stepOn 0xBFFE (regs [(0x0#4, 0x02#8)])) (.memoryOutOfBounds 0x1000) &&
    faultIs (stepOn 0xBFFF (regs [(0x0#4, 0xFF#8)])) (.memoryOutOfBounds 0x10FE) &&
    faultIs (stepOn 0xB300 (regs [(0x0#4, 0x01#8)])) (.misalignedPC 0x301)) = true := by decide
theorem test_call_at_the_end : nextHas (stepOn 0x2ABC (State.reset.setPc 0xFFE#16))
    (fun t => t.stack[0] == 0x1000#16 && t.sp == 1 && t.pc == 0xABC#16) = true := by decide
theorem test_call_faults : (faultIs (stepOn 0x2FFF (calls 0x200#16 16 0#16)) .stackOverflow &&
    faultIs (stepOn 0x2FFF State.reset) (.memoryOutOfBounds 0xFFF) &&
    faultIs (stepOn 0x2301 State.reset) (.misalignedPC 0x301)) = true := by decide
theorem test_ret : nextHas (stepOn 0x00EE (calls 0x300#16 16 0x0456#16)) (fun t => t.sp == 15 && t.pc == 0x456#16) = true := by
  decide
theorem test_ret_faults : (faultIs (stepOn 0x00EE State.reset) .stackUnderflow &&
    faultIs (stepOn 0x00EE (calls 0x300#16 1 0x1000#16)) (.memoryOutOfBounds 0x1000)) = true := by decide
theorem test_fetch_at_the_end : nextHas (stepOn 0x6000 (State.reset.setPc 0xFFE#16)) (fun t =>
    t.pc == 0x1000#16 && faultIs (step t) (.memoryOutOfBounds 0x1000)) = true := by decide

/-! ### Index, random (95_test_vectors.md 2.7, 2.8) -/

theorem test_ldI : nextHas (stepOn 0xA2F0 (State.reset.setI 0xFFFF#16)) (fun t => t.i == 0x02F0#16) = true := by decide
theorem test_addI_past_4096 : nextHas (stepOn 0xF11E ((regs [(0x1#4, 0x01#8)]).setI 0x0FFF#16))
    (fun t => t.i == 0x1000#16 && t.getV 0xF#4 == 0x00#8) = true := by decide
theorem test_addI_wraps : nextHas (stepOn 0xF11E ((regs [(0x1#4, 0x01#8)]).setI 0xFFFF#16))
    (fun t => t.i == 0x0000#16 && t.getV 0xF#4 == 0x00#8) = true := by decide
theorem test_rnd_advances : nextHas (stepOn 0xC50F State.reset) (fun t => t.pc == 0x202#16 && t.rngDraws == 1) = true := by
  decide

/-! ### Display (95_test_vectors.md 2.9) -/

theorem test_drw_wraps : nextHas (exec (.drw 0x0#4 0x1#4 0x2#4)
      ((put (regs [(0x0#4, 0x3F#8), (0x1#4, 0x1F#8)]) 0x300 [0xC0, 0xC0]).setI 0x300#16))
    (fun t => lit t [(0, 0), (63, 0), (0, 31), (63, 31)] [(1, 0), (62, 0), (0, 1), (1, 31), (63, 30)] && t.getV 0xF#4 == 0x00#8) = true := by decide
theorem test_drw_collides_and_bounds : (nextHas (exec (.drw 0x0#4 0x1#4 0x1#4)
      (((put State.reset 0x300 [0xC0]).setI 0x300#16).setDisp (Display.blank.toggle 1 0)))
      (fun t => lit t [(0, 0)] [(1, 0), (2, 0), (0, 1)] && t.getV 0xF#4 == 0x01#8) &&
    faultIs (stepOn 0xD012 (State.reset.setI 0xFFF#16)) (.memoryOutOfBounds 0x1000) &&
    nextHas (stepOn 0xD010 ((regs [(0xF#4, 0x01#8)]).setI 0xFFFF#16)) (fun t => t.getV 0xF#4 == 0x00#8)) = true := by
  decide
theorem test_cls : nextHas (stepOn 0x00E0 ((regs [(0xF#4, 0x01#8)]).setDisp (Display.blank.toggle 63 31)))
    (fun t => lit t [] [(63, 31), (0, 0)] && t.getV 0xF#4 == 0x01#8) = true := by decide

/-! ### Keys and timers (95_test_vectors.md 2.10 to 2.12) -/

theorem test_skp : nextHas (stepOn 0xE29E ((regs [(0x2#4, 0x15#8)]).setKey 0x5#4 true))
    (fun t => t.pc == 0x204#16 && t.getKey 0x5#4) = true := by decide
theorem test_skp_up : nextHas (stepOn 0xE29E (regs [(0x2#4, 0x05#8)])) (fun t => t.pc == 0x202#16) = true := by decide
theorem test_sknp : nextHas (stepOn 0xE2A1 (regs [(0x2#4, 0x05#8)])) (fun t => t.pc == 0x204#16) = true := by decide
theorem test_sknp_down : nextHas (stepOn 0xE2A1 ((regs [(0x2#4, 0xF5#8)]).setKey 0x5#4 true))
    (fun t => t.pc == 0x202#16) = true := by decide
theorem test_ldFromDt : nextHas (stepOn 0xF407 (State.reset.setDt 0x3C#8))
    (fun t => t.getV 0x4#4 == 0x3C#8 && t.dt == 0x3C#8) = true := by decide
theorem test_ldDt : nextHas (stepOn 0xF415 (regs [(0x4#4, 0x3C#8)])) (fun t => t.dt == 0x3C#8 && t.st == 0x00#8) = true := by
  decide
theorem test_ldSt : nextHas (stepOn 0xF418 (regs [(0x4#4, 0x02#8)]))
    (fun t => t.st == 0x02#8 && t.dt == 0x00#8 && t.toneOn) = true := by decide
theorem test_ldKey_enters_though_held : nextHas (stepOn 0xF30A ((regs [(0x3#4, 0xAA#8)]).setKey 0x7#4 true))
    (fun t => t.await && t.capt == none && t.pc == 0x200#16 && t.getV 0x3#4 == 0xAA#8) = true := by decide
theorem test_ldKey_completes : nextHas (stepOn 0xF30A ((regs [(0x3#4, 0xAA#8)]).setWait false (some 0x7#4)))
    (fun t => t.getV 0x3#4 == 0x07#8 && t.capt == none && t.pc == 0x202#16) = true := by decide
theorem test_keyDown_captures : (opKeyDown 0x7#4 (State.reset.setWait true none)).capt = some 0x7#4 ∧
    (opKeyDown 0x9#4 (State.reset.setWait false (some 0x7#4))).capt = some 0x7#4 := by decide
theorem test_tick : opTick ((State.reset.setDt 0x02#8).setSt 0x01#8) = State.reset.setDt 0x01#8 ∧
    opTick State.reset = State.reset := by decide

/-! ### Memory instructions (95_test_vectors.md 2.13) -/

theorem test_ldFont : nextHas (stepOn 0xF229 (regs [(0x2#4, 0x1A#8)])) (fun t => t.i == 0x0032#16) = true := by decide
theorem test_ldBcd : nextHas (stepOn 0xF133 ((regs [(0x1#4, 0x9C#8)]).setI 0x300#16))
    (fun t => t.mem.readBytes 0x300 3 == [0x01, 0x05, 0x06] && t.i == 0x300#16) = true := by decide
theorem test_ldBcd_bounds : (nextHas (stepOn 0xF133 ((regs [(0x1#4, 0x63#8)]).setI 0xFFD#16))
      (fun t => t.mem.readBytes 0xFFD 3 == [0x00, 0x09, 0x09]) &&
    faultIs (stepOn 0xF133 (State.reset.setI 0xFFE#16)) (.memoryOutOfBounds 0x1000) &&
    faultIs (stepOn 0xF133 (State.reset.setI 0xFFFF#16)) (.memoryOutOfBounds 0xFFFF)) = true := by decide
theorem test_storeRegs : nextHas (stepOn 0xF355 ((regs [(0x0#4, 0x11#8), (0x1#4, 0x22#8), (0x2#4, 0x33#8),
      (0x3#4, 0x44#8), (0x4#4, 0x55#8)]).setI 0x300#16))
    (fun t => t.mem.readBytes 0x300 5 == [0x11, 0x22, 0x33, 0x44, 0x00] && t.i == 0x300#16) = true := by decide
theorem test_storeRegs_quirk : (nextHas (stepOn 0xFF55 (withQ ((regs [(0xF#4, 0xEE#8)]).setI 0xFF0#16) false false true))
      (fun t => t.mem.read 0xFFF == 0xEE#8 && t.i == 0x1000#16) &&
    faultIs (stepOn 0xFF55 (State.reset.setI 0xFF1#16)) (.memoryOutOfBounds 0x1000)) = true := by decide
theorem test_loadRegs : nextHas (stepOn 0xF265 ((put State.reset 0x300 [0xAA, 0xBB, 0xCC, 0xDD]).setI 0x300#16))
    (fun t => t.getV 0x0#4 == 0xAA#8 && t.getV 0x1#4 == 0xBB#8 && t.getV 0x2#4 == 0xCC#8 && t.getV 0x3#4 == 0x00#8 &&
      t.i == 0x300#16) = true := by decide
theorem test_loadRegs_font : nextHas (stepOn 0xFF65 (withQ State.reset false false true))
    (fun t => t.v.toList == [0xF0, 0x90, 0x90, 0x90, 0xF0, 0x20, 0x60, 0x20, 0x20, 0x70, 0xF0, 0x10, 0xF0, 0x80,
      0xF0, 0xF0] && t.i == 0x0010#16) = true := by decide

/-! ### Reset and load (95_test_vectors.md 2.15) -/

theorem test_reset_memory_canonical : State.reset.mem.wf = true := by decide
theorem test_reset_font : State.reset.mem.readBytes 0x000 5 = [0xF0, 0x90, 0x90, 0x90, 0xF0] ∧
    State.reset.mem.readBytes 0x04B 6 = [0xF0, 0x80, 0xF0, 0x80, 0x80, 0x00] := by decide
theorem test_step_without_rom : faultIs (step State.reset) (.unknownOpcode 0x0000#16) = true := by decide
theorem test_loadRom_keeps_the_tail :
    nextHas (runSchedule [.loadRom (.bytes [0x12, 0x34, 0x56]), .loadRom (.bytes [0xAA])] State.reset)
      (fun t => t.mem.readBytes 0x200 4 == [0xAA, 0x34, 0x56, 0x00] && t.romLoaded) = true := by decide

/-! ### Witnesses: inputs that meet the hypotheses of the statements -/

/-- The reset state with a jump to itself at 0x200. -/
def selfJump : State := State.reset.withFetchWord 16 0x1200

theorem selfJump_inv : selfJump.Inv where
  mem := by decide
  pcEven := by decide
  pcBound := by decide
  stack := fun j hj => absurd hj (Nat.not_lt_zero _)
  wait := fun _ => rfl

theorem witness_DecodeOfEncode : (Instr.sys 0x0E1#12).wellFormed = true ∧ (Instr.drw 0xF#4 0xF#4 0xF#4).wellFormed = true := by
  decide
theorem witness_EncodeOfDecode :
    decodeBytes [0x81#8, 0x24#8, 0x00#8] = .ok (.addReg 0x1#4 0x2#4, [0x00#8]) := by decide
theorem witness_UnknownOpcode : State.reset.pc.toNat + 1 ≤ 4095 ∧ State.reset.wordAtPc = 0x0000#16 ∧ IllegalWord 0x0000#16 :=
  ⟨by decide, by decide, .inl (by decide)⟩
/-- The last word of memory holds an instruction. -/
def atTheEnd : State := (State.reset.setPc 0xFFE#16).withFetchWord 16 0x6A2B

theorem witness_StepRuns : atTheEnd.pc.toNat + 1 ≤ 4095 ∧
    decodeBytes [atTheEnd.mem.read atTheEnd.pc.toNat, atTheEnd.mem.read (atTheEnd.pc.toNat + 1)] =
      .ok (.ldImm 0xA#4 0x2B#8, []) := by decide
theorem witness_FetchOutOfBounds : 4095 < (State.reset.setPc 0xFFF#16).pc.toNat + 1 ∧
    4095 < (State.reset.setPc 0x1002#16).pc.toNat + 1 := by decide
theorem witness_StepFault_fetch : OperationFault (State.reset.setPc 0xFFF#16) (.memoryOutOfBounds 0xFFF) .step :=
  .inl ⟨by decide, rfl⟩
theorem witness_StepFault_decode : OperationFault State.reset (.unknownOpcode 0x0000#16) .step :=
  .inr (.inl ⟨by decide, .inl (by decide), by decide⟩)
theorem witness_StepFault_instruction : OperationFault (State.reset.withFetchWord 16 0x00EE) .stackUnderflow .step :=
  .inr (.inr ⟨by decide, .ret, by decide, .inl ⟨by decide, rfl⟩⟩)
theorem witness_LoadRomFault : OperationFault State.reset .romLoadError (.loadRom .unreadable) ∧
    OperationFault State.reset .romLoadError (.loadRom (.bytes (List.replicate 3585 0xAA#8))) := by
  refine ⟨rfl, ?_, rfl⟩
  rw [List.length_replicate]
  decide
theorem witness_FetchSees : ∃ t, (State.reset.setI 0x202#16).mem.wf = true ∧
    exec (.storeRegs 0x1#4) (State.reset.setI 0x202#16) = .next t ∧ (0x1#4).toNat ≤ (0x1#4).toNat ∧
    (0x1#4).toNat = (0x0#4).toNat + 1 ∧ t.pc.toNat = (State.reset.setI 0x202#16).i.toNat + (0x0#4).toNat := by
  obtain ⟨t, h, hp⟩ := next_of_nextHas (o := exec (.storeRegs 0x1#4) (State.reset.setI 0x202#16))
    (p := fun t => t.pc == 0x202#16) (by decide)
  exact ⟨t, by decide, h, by decide, by decide, by rw [eq_of_beq hp]; decide⟩
theorem witness_StepKeepsTheInvariant : ∃ t, selfJump.Inv ∧ step selfJump = .next t := by
  obtain ⟨t, h, -⟩ := next_of_nextHas (o := step selfJump) (p := fun _ => true) (by decide)
  exact ⟨t, selfJump_inv, h⟩
/-- The same while a key is awaited, which the invariant admits. -/
theorem selfJump_waiting_inv : (selfJump.setWait true none).Inv where
  mem := selfJump_inv.mem
  pcEven := selfJump_inv.pcEven
  pcBound := selfJump_inv.pcBound
  stack := selfJump_inv.stack
  wait := fun _ => rfl

theorem witness_OperationsKeepTheInvariant : ∃ s : State, s.Inv ∧ s.await = true ∧
    ∀ o ∈ [Op.step, .reset, .loadRom (.bytes [0x12, 0x00]), .tick, .keyDown 0xF#4, .keyUp 0x0#4,
      .setQuirks State.reset.q], ∃ t, operate o s = .next t := by
  have h : ∀ o ∈ [Op.step, .reset, .loadRom (.bytes [0x12, 0x00]), .tick, .keyDown 0xF#4, .keyUp 0x0#4,
      .setQuirks State.reset.q], nextHas (operate o (selfJump.setWait true none)) (fun _ => true) = true := by
    decide
  refine ⟨_, selfJump_waiting_inv, rfl, fun o ho => ?_⟩
  obtain ⟨t, ht, -⟩ := next_of_nextHas (h o ho)
  exact ⟨t, ht⟩
theorem witness_WriteOnly : ∃ t, exec (.ldImm 0x1#4 0x02#8) State.reset = .next t ∧
    ¬ MayWrite .mem (.ldImm 0x1#4 0x02#8) ∧ ¬ MayWriteReg State.reset 0xF#4 (.ldImm 0x1#4 0x02#8) :=
  ⟨_, rfl, by simp [MayWrite], by simp [MayWriteReg]⟩
theorem witness_PcMoves : ∃ t u w r, exec (.ldKey 0x0#4) State.reset = .next t ∧
    exec (.seImm 0x0#4 0x00#8) State.reset = .next u ∧ exec (.jp 0xFFE#12) State.reset = .next w ∧
    exec .cls State.reset = .next r := ⟨_, _, _, _, rfl, rfl, rfl, rfl⟩
theorem witness_SoundTimer : (∀ x, fetchInstr selfJump ≠ .ok (.ldSt x)) ∧
    fetchInstr (State.reset.withFetchWord 16 0xF418) = .ok (.ldSt 0x4#4) := by
  refine ⟨fun x => ?_, by decide⟩
  rw [show fetchInstr selfJump = .ok (.jp 0x200#12) from by decide]
  simp
theorem witness_DeadStackSlots : SameButDeadSlots (calls 0x300#16 0 0x0456#16) (calls 0x300#16 0 0x0000#16) :=
  ⟨rfl, fun _ hj => absurd hj (Nat.not_lt_zero _)⟩
theorem witness_Logic : (withQ State.reset true false false).q.logicResetVf = true ∧ State.reset.q.logicResetVf = false ∧
    (0x1#4 : Nibble) ≠ 15#4 := by decide
theorem witness_Add : (0x4#4 : Nibble) ≠ 15#4 ∧
    ((regs [(0x4#4, 0xC8#8), (0x5#4, 0x64#8)]).getV 0x4#4).toNat +
      ((regs [(0x4#4, 0xC8#8), (0x5#4, 0x64#8)]).getV 0x5#4).toNat > 255 ∧
    ¬ (State.reset.getV 0x4#4).toNat + (State.reset.getV 0x5#4).toNat > 255 := by decide
theorem witness_Sub : (State.reset.getV 0x1#4).toNat ≥ (State.reset.getV 0x2#4).toNat ∧
    ¬ ((regs [(0x2#4, 0x01#8)]).getV 0x1#4).toNat ≥ ((regs [(0x2#4, 0x01#8)]).getV 0x2#4).toNat ∧
    ¬ ((regs [(0x1#4, 0x01#8)]).getV 0x2#4).toNat ≥ ((regs [(0x1#4, 0x01#8)]).getV 0x1#4).toNat := by decide
theorem witness_Shift : ((regs [(0x3#4, 0x81#8)]).getV 0x3#4).toNat % 2 = 1 ∧
    128 ≤ ((regs [(0x3#4, 0x81#8)]).getV 0x3#4).toNat ∧ ¬ (State.reset.getV 0x3#4).toNat % 2 = 1 ∧
    ¬ 128 ≤ (State.reset.getV 0x3#4).toNat := by decide
theorem witness_Skips : State.reset.getV 0x0#4 = 0x00#8 ∧ ¬ State.reset.getV 0x0#4 = 0xFF#8 ∧
    State.reset.getV 0x0#4 = State.reset.getV 0x1#4 ∧
    ¬ (regs [(0x0#4, 0x01#8)]).getV 0x0#4 = (regs [(0x0#4, 0x01#8)]).getV 0x1#4 := by decide
theorem witness_KeySkips : (0x5#4 : Nibble).toNat = ((regs [(0x2#4, 0xF5#8)]).getV 0x2#4).toNat % 16 ∧
    ((regs [(0x2#4, 0xF5#8)]).setKey 0x5#4 true).getKey 0x5#4 = true ∧
    (regs [(0x2#4, 0xF5#8)]).getKey 0x5#4 = false := by decide
theorem witness_Jump : (0xFFE#12).toNat % 2 = 0 ∧ (0xFFF#12).toNat = 0xFFF ∧
    ((0xFFD#12).toNat % 2 = 1 ∧ (0xFFD#12).toNat < 0xFFF) := by decide
theorem witness_JumpWithOffset : State.reset.qJumpVx = false ∧
    ({ State.reset with qJumpVx := true }.qJumpVx = true ∧ (0xF#4 : Nibble).toNat = (0xFFE#12).toNat / 256) ∧
    (0xFFE#12).toNat + (State.reset.getV 0x0#4).toNat = 0xFFE ∧
    0xFFF ≤ (0xFFF#12).toNat + (State.reset.getV 0x0#4).toNat ∧
    ((0xFFD#12).toNat + (State.reset.getV 0x0#4).toNat < 0xFFF ∧
      ((0xFFD#12).toNat + (State.reset.getV 0x0#4).toNat) % 2 = 1) := by decide
theorem witness_Call : (calls 0x200#16 16 0#16).sp.val = 16 ∧ (calls 0x200#16 15 0#16).sp.val < 16 := by decide
theorem witness_Return : State.reset.sp.val = 0 ∧ (15 : Fin 16).val + 1 = (calls 0x300#16 16 0xFFE#16).sp.val ∧
    (calls 0x300#16 16 0xFFE#16).stack[(15 : Fin 16)].toNat < 0xFFF ∧
    0xFFF ≤ (calls 0x300#16 16 0xFFF#16).stack[(15 : Fin 16)].toNat := by decide
theorem witness_ReturnUndoesCall : ∃ t, (calls 0xFFC#16 15 0#16).pc.toNat ≤ 0xFFC ∧
    exec (.call 0x300#12) (calls 0xFFC#16 15 0#16) = .next t ∧ t.sp = t.sp ∧
    ∀ j : Fin 16, j.val < t.sp.val → t.stack[j] = t.stack[j] := by
  obtain ⟨t, h, -⟩ := next_of_nextHas (o := exec (.call 0x300#12) (calls 0xFFC#16 15 0#16)) (p := fun _ => true)
    (by decide)
  exact ⟨t, by decide, h, rfl, fun _ _ => rfl⟩
theorem witness_CallsNest : (0x300#12).toNat % 2 = 0 ∧ State.reset.sp.val + 16 ≤ 16 ∧ 16 < State.reset.sp.val + 17 := by decide
theorem witness_Sys : (0x0E1#12).toNat ≠ 0x0E0 ∧ (0x0E1#12).toNat ≠ 0x0EE := by decide
theorem witness_SelfJump : selfJump.Inv ∧ selfJump.atSelfJump := ⟨selfJump_inv, 0x200#12, by decide, by decide⟩

/-- A sprite row of one lit pixel at 0xFFF, drawn at the origin. -/
def sprite : State := (put State.reset 0xFFF [0x80]).setI 0xFFF#16

theorem witness_Draw_bounds : (0 < (0x2#4 : Nibble).toNat ∧ 4095 < sprite.i.toNat + (0x2#4 : Nibble).toNat - 1) ∧
    sprite.i.toNat + (0x1#4 : Nibble).toNat - 1 ≤ 4095 ∧ (0x0#4 : Nibble).toNat = 0 := by decide
theorem witness_Draw_lights : SpriteLights sprite 0x0#4 0x1#4 0x1#4 0 0 ∧ ¬ SpriteLights sprite 0x0#4 0x1#4 0x0#4 0 0 :=
  ⟨⟨0, 0, by decide, by decide, by decide, by decide, by decide⟩, fun ⟨_, _, h, _⟩ => absurd h (Nat.not_lt_zero _)⟩
theorem witness_Draw_collision : (∃ px py, SpriteLights (sprite.setDisp (Display.blank.toggle 0 0)) 0x0#4 0x1#4 0x1#4 px py ∧
      (sprite.setDisp (Display.blank.toggle 0 0)).disp.pixel px py = true) ∧
    ¬ ∃ px py, SpriteLights sprite 0x0#4 0x1#4 0x0#4 px py ∧ sprite.disp.pixel px py = true :=
  ⟨⟨0, 0, ⟨0, 0, by decide, by decide, by decide, by decide, by decide⟩, by decide⟩,
    fun ⟨_, _, ⟨_, _, h, _⟩, _⟩ => absurd h (Nat.not_lt_zero _)⟩
theorem witness_DisplayBytes : 63 < 64 ∧ 31 < 32 := by decide
theorem witness_Drew : ∃ t u, step (State.reset.withFetchWord 16 0xD010) = .next t ∧ step selfJump = .next u := by
  obtain ⟨t, h, -⟩ := next_of_nextHas (o := step (State.reset.withFetchWord 16 0xD010)) (p := fun _ => true) (by decide)
  obtain ⟨u, h', -⟩ := next_of_nextHas (o := step selfJump) (p := fun _ => true) (by decide)
  exact ⟨t, u, h, h'⟩
theorem witness_WaitForKey : (State.reset.setWait false (some 0xF#4)).capt = some 0xF#4 ∧
    ((State.reset.setWait true none).capt = none ∧ (State.reset.setWait true none).await = true) ∧
    (State.reset.capt = none ∧ State.reset.await = false) := by decide
theorem witness_WaitEnds : fetchInstr (State.reset.withFetchWord 16 0xF30A) = .ok (.ldKey 0x3#4) ∧
    (State.reset.withFetchWord 16 0xF30A).capt = none ∧ ∀ e ∈ [Op.tick, .keyUp 0x7#4, .keyDown 0x9#4], IsEvent e := by
  refine ⟨by decide, by decide, ?_⟩
  simp [IsEvent]
theorem witness_KeyDown : (State.reset.setWait true none).await = true ∧ State.reset.await = false ∧
    (0x1#4 : Nibble) ≠ 0x0#4 := by decide
theorem witness_Bcd : 4095 < (State.reset.setI 0xFFE#16).i.toNat + 2 ∧
    ((State.reset.setI 0xFFD#16).mem.wf = true ∧ (State.reset.setI 0xFFD#16).i.toNat + 2 ≤ 4095) := by decide
theorem witness_Block : 4095 < (State.reset.setI 0xFF1#16).i.toNat + (0xF#4 : Nibble).toNat ∧
    ((State.reset.setI 0xFF0#16).mem.wf = true ∧ (State.reset.setI 0xFF0#16).i.toNat + (0xF#4 : Nibble).toNat ≤ 4095) ∧
    (withQ State.reset false false true).q.blockIncrI = true ∧ State.reset.q.blockIncrI = false ∧
    (0x2#4 : Nibble).toNat ≤ (0x2#4 : Nibble).toNat ∧ (0x2#4 : Nibble).toNat < (0x3#4 : Nibble).toNat := by decide
theorem witness_LoadRom : State.reset.mem.wf = true ∧ (List.replicate 3584 (0xAA#8 : Byte)).length ≤ 3584 ∧
    3584 < (List.replicate 3585 (0xAA#8 : Byte)).length := by
  refine ⟨by decide, ?_, ?_⟩ <;> rw [List.length_replicate]
  decide
theorem witness_ResetTable : 0x50 ≤ 0x50 ∧ 0x50 ≤ 0xFFF := by decide
theorem witness_Boot : ([] : List Byte).length ≤ 3582 := by decide

end Sys2Proof.Tests
end

section
/-! The step as fetch, decode and execute (00_scope.md R11). -/

namespace Sys2Proof.Machine

/-- Two bytes decode as the word they make. -/
theorem decodeBytes_pair {hi lo : Byte} {i : Instr} :
    decodeBytes [hi, lo] = .ok (i, []) ↔ decodeWord (wordOfBytes hi lo) = .ok i := by
  rw [decodeBytes]
  cases decodeWord (wordOfBytes hi lo) <;> simp

/-- The fetch gives an instruction exactly where both bytes at PC exist and their word decodes to it. -/
theorem fetchInstr_ok {s : State} {i : Instr} :
    fetchInstr s = .ok i ↔ s.pc.toNat + 1 < 4096 ∧ decodeWord s.wordAtPc = .ok i := by
  unfold fetchInstr
  by_cases hpc : s.pc.toNat + 1 < 4096
  · rw [fetchWord_ok hpc]
    cases hdec : decodeWord s.wordAtPc <;> simp [hdec, hpc]
  · simp [fetchWord_error hpc, hpc]

theorem step_of_fetchInstr {s : State} {i : Instr} (h : fetchInstr s = .ok i) : step s = exec i s := by
  rw [step, h]

/-- A step that completes is the completed execution of the fetched instruction. -/
theorem step_next {s t : State} :
    step s = .next t ↔ ∃ i, fetchInstr s = .ok i ∧ exec i s = .next t := by
  unfold step
  cases fetchInstr s <;> simp [raise]

/-- Settles O5: the two bytes at PC are the fetched word, and a step executes what it decodes to. -/
theorem stepRunsDecodedInstruction : Obligations.StepRunsDecodedInstruction := by
  intro s i hpc hdec
  exact step_of_fetchInstr (fetchInstr_ok.2 ⟨by omega, decodeBytes_pair.1 hdec⟩)

end Sys2Proof.Machine
end

section
/-! The instructions that can stop or that have several outcomes: the state each one completes in, said
once. -/

namespace Sys2Proof.Machine

/-- RET completes exactly when an address below 0xFFF is held, and goes on at the newest (R134). -/
theorem execRet_next {s t : State} :
    execRet s = .next t ↔ ∃ a u, s.pop = some (a, u) ∧ a.toNat + 1 < 4096 ∧ t = u.setPc a := by
  unfold execRet
  cases s.pop with
  | none => simp [raise]
  | some au =>
    obtain ⟨a, u⟩ := au
    by_cases hb : a.toNat + 1 < 4096
    · simp [targetOutOfBounds, hb, Nat.not_le.2 hb, eq_comm]
    · simp [targetOutOfBounds, hb, Nat.not_lt.1 hb, raise]

/-- CALL completes exactly when there is room and its target passes both checks (R133). -/
theorem execCall_next {nnn : Addr12} {s t : State} :
    execCall nnn s = .next t ↔ ∃ u, s.push (s.pc + 2#16) = some u ∧
      nnn.toNat + 1 < 4096 ∧ nnn.toNat % 2 = 0 ∧ t = u.setPc (BitVec.ofNat 16 nnn.toNat) := by
  unfold execCall
  cases s.push (s.pc + 2#16) with
  | none => simp [raise]
  | some u => simp [setPC_next, zextAddr_toNat]

theorem execLdBcd_next {x : Nibble} {s t : State} :
    execLdBcd x s = .next t ↔
      ∃ m, memWriteBlock s.mem (dataBase s) (bcdDigits (s.getV x)) = .ok m ∧
        t = (s.setMem m).advance := by
  unfold execLdBcd
  cases memWriteBlock s.mem (dataBase s) (bcdDigits (s.getV x)) <;> simp [raise, eq_comm]

theorem execStoreRegs_next {x : Nibble} {s t : State} :
    execStoreRegs x s = .next t ↔ ∃ m, memWriteBlock s.mem (dataBase s) (regBlock s x) = .ok m ∧
      t = ((s.setMem m).setI (indexAfterBlock s x)).advance := by
  unfold execStoreRegs
  cases memWriteBlock s.mem (dataBase s) (regBlock s x) <;> simp [raise, eq_comm]

theorem execLoadRegs_next {x : Nibble} {s t : State} :
    execLoadRegs x s = .next t ↔ ∃ bs, memReadBlock s.mem (dataBase s) (x.toNat + 1) = .ok bs ∧
      t = ((s.setRegs (Regs.load s.v 0 bs)).setI (indexAfterBlock s x)).advance := by
  unfold execLoadRegs
  cases memReadBlock s.mem (dataBase s) (x.toNat + 1) <;> simp [raise, eq_comm]

theorem execDrw_next {x y n : Nibble} {s t : State} :
    execDrw x y n s = .next t ↔ ∃ sprite d, memReadBlock s.mem (dataBase s) n.toNat = .ok sprite ∧
      d = drawSprite (s.getV x).toNat (s.getV y).toNat sprite (s.disp, false) ∧
      t = ((s.setDisp d.1).setVF d.2).advance := by
  unfold execDrw
  cases memReadBlock s.mem (dataBase s) n.toNat <;> simp [raise, eq_comm]

/-- LD Vx, K takes the captured key, goes on waiting, or begins to wait (R165). -/
theorem execLdKey_next {x : Nibble} {s t : State} :
    execLdKey x s = .next t ↔
      (∃ k, s.capt = some k ∧ t = ((s.setV x (k.setWidth 8)).setWait s.await none).advance) ∨
      (s.capt = none ∧ s.await = true ∧ t = s) ∨
      (s.capt = none ∧ s.await = false ∧ t = s.setWait true none) := by
  unfold execLdKey
  cases s.capt with
  | some k => simp [eq_comm (b := t)]
  | none => cases s.await <;> simp [eq_comm (b := t)]

end Sys2Proof.Machine
end

section
/-! What an instruction keeps.  The frames here are exact: a field itself is equal, which the canonical
form of memory needs, and not only what is read from it, as in `Part.same`. -/

namespace Sys2Proof.Machine

/-! ### Frames by field -/

/-- The fields that hold a piece of state are equal in both states. -/
def Part.kept : Part → State → State → Prop
  | .regs, s, t => t.v = s.v
  | .index, s, t => t.i = s.i
  | .stack, s, t => t.sp = s.sp ∧ t.stack = s.stack
  | .mem, s, t => t.mem = s.mem
  | .disp, s, t => t.disp = s.disp
  | .dt, s, t => t.dt = s.dt
  | .st, s, t => t.st = s.st
  | .keys, s, t => t.key = s.key
  | .wait, s, t => t.await = s.await ∧ t.capt = s.capt
  | .quirks, s, t => t.q = s.q
  | .romLoaded, s, t => t.romLoaded = s.romLoaded
  | .jumpVx, s, t => t.qJumpVx = s.qJumpVx
  | .draws, s, t => t.rngDraws = s.rngDraws

/-- Every piece of state but PC and the pieces of `parts` is kept field by field. -/
def KeepsAllBut (parts : List Part) (s t : State) : Prop := ∀ p, p ∉ parts → p.kept s t

/-- Equal fields read the same, cell by cell. -/
theorem Part.same_of_kept {p : Part} {s t : State} (h : p.kept s t) : p.same s t := by
  cases p <;> simp_all [Part.kept, Part.same, State.getV, State.getKey]

theorem Part.kept_trans {p : Part} {s t u : State} (h : p.kept s t) (h' : p.kept t u) : p.kept s u := by
  cases p <;> simp_all [Part.kept]

theorem KeepsAllBut.refl (parts : List Part) (s : State) : KeepsAllBut parts s s := by
  intro p _; cases p <;> simp [Part.kept]

/-- Two updates, one after the other, change what either changes. -/
theorem KeepsAllBut.trans {ps qs : List Part} {s t u : State} (h : KeepsAllBut ps s t)
    (h' : KeepsAllBut qs t u) : KeepsAllBut (ps ++ qs) s u := by
  intro p hp
  rw [List.mem_append, not_or] at hp
  exact Part.kept_trans (h p hp.1) (h' p hp.2)

/-! ### One frame per update of the state -/

theorem State.setPc_keeps (s : State) (a : Word) : KeepsAllBut [] s (s.setPc a) := by
  intro p _; cases p <;> simp [Part.kept]

theorem State.setV_keeps (s : State) (x : Nibble) (b : Byte) : KeepsAllBut [.regs] s (s.setV x b) := by
  intro p hp; cases p <;> simp [Part.kept] at hp ⊢

theorem State.setRegs_keeps (s : State) (v : Regs) : KeepsAllBut [.regs] s (s.setRegs v) := by
  intro p hp; cases p <;> simp [Part.kept] at hp ⊢

theorem State.setI_keeps (s : State) (a : Word) : KeepsAllBut [.index] s (s.setI a) := by
  intro p hp; cases p <;> simp [Part.kept] at hp ⊢

theorem State.setStack_keeps (s : State) (n : Fin 17) (st : Vector Word 16) :
    KeepsAllBut [.stack] s (s.setStack n st) := by
  intro p hp; cases p <;> simp [Part.kept] at hp ⊢

theorem State.setMem_keeps (s : State) (m : Memory) : KeepsAllBut [.mem] s (s.setMem m) := by
  intro p hp; cases p <;> simp [Part.kept] at hp ⊢

theorem State.setDisp_keeps (s : State) (d : Display) : KeepsAllBut [.disp] s (s.setDisp d) := by
  intro p hp; cases p <;> simp [Part.kept] at hp ⊢

theorem State.setDt_keeps (s : State) (b : Byte) : KeepsAllBut [.dt] s (s.setDt b) := by
  intro p hp; cases p <;> simp [Part.kept] at hp ⊢

theorem State.setSt_keeps (s : State) (b : Byte) : KeepsAllBut [.st] s (s.setSt b) := by
  intro p hp; cases p <;> simp [Part.kept] at hp ⊢

theorem State.setWait_keeps (s : State) (a : Bool) (c : Option Nibble) :
    KeepsAllBut [.wait] s (s.setWait a c) := by
  intro p hp; cases p <;> simp [Part.kept] at hp ⊢

theorem State.countDraw_keeps (s : State) : KeepsAllBut [.draws] s s.countDraw := by
  intro p hp; cases p <;> simp [Part.kept] at hp ⊢

theorem writeResultFlag_keeps (s : State) (x : Nibble) (r : Byte) (flag : Bool) :
    KeepsAllBut [.regs] s (writeResultFlag s x r flag) := by
  intro p hp; cases p <;> simp [Part.kept, writeResultFlag] at hp ⊢

theorem writeLogic_keeps (s : State) (x : Nibble) (r : Byte) :
    KeepsAllBut [.regs] s (writeLogic s x r) := by
  unfold writeLogic
  split <;> intro p hp <;> cases p <;> simp [Part.kept] at hp ⊢

/-- Moving PC keeps every frame. -/
theorem KeepsAllBut.setPc {parts : List Part} {s t : State} (h : KeepsAllBut parts s t) (a : Word) :
    KeepsAllBut parts s (t.setPc a) := fun p hp =>
  Part.kept_trans (h p hp) (t.setPc_keeps a p List.not_mem_nil)

theorem KeepsAllBut.advance {parts : List Part} {s t : State} (h : KeepsAllBut parts s t) :
    KeepsAllBut parts s t.advance := h.setPc _

theorem State.skipIf_keeps (s : State) (c : Bool) : KeepsAllBut [] s (s.skipIf c) := s.setPc_keeps _

theorem setPC_keeps {a : Nat} {s t : State} (h : setPC a s = .next t) : KeepsAllBut [] s t := by
  obtain ⟨-, -, rfl⟩ := setPC_next.1 h
  exact s.setPc_keeps _

theorem State.push_keeps {s u : State} {v : Word} (h : s.push v = some u) : KeepsAllBut [.stack] s u := by
  obtain ⟨_, rfl⟩ := State.push_some.1 h
  exact s.setStack_keeps _ _

theorem State.pop_keeps {s u : State} {a : Word} (h : s.pop = some (a, u)) : KeepsAllBut [.stack] s u := by
  obtain ⟨_, -, rfl⟩ := State.pop_some.1 h
  exact s.setStack_keeps _ _

/-! ### One frame per instruction -/

/-- The pieces of state other than PC that the instruction's rule writes (R100 to R173). -/
def writtenParts : Instr → List Part
  | .cls => [.disp]
  | .ret | .call _ => [.stack]
  | .sys _ | .jp _ | .jpV0 _ | .seImm _ _ | .sneImm _ _ | .seReg _ _ | .sneReg _ _ | .skp _ | .sknp _ => []
  | .ldImm _ _ | .addImm _ _ | .ldReg _ _ | .orReg _ _ | .andReg _ _ | .xorReg _ _ | .addReg _ _
  | .subReg _ _ | .shrReg _ _ | .subnReg _ _ | .shlReg _ _ | .ldFromDt _ => [.regs]
  | .ldI _ | .addI _ | .ldFont _ => [.index]
  | .rnd _ _ => [.draws, .regs]
  | .drw _ _ _ => [.disp, .regs]
  | .ldKey _ => [.regs, .wait]
  | .ldDt _ => [.dt]
  | .ldSt _ => [.st]
  | .ldBcd _ => [.mem]
  | .storeRegs _ => [.mem, .index]
  | .loadRegs _ => [.regs, .index]

/-- The parts an instruction writes are among those its rule lets it write. -/
theorem mayWrite_of_mem_writtenParts (i : Instr) : ∀ p ∈ writtenParts i, MayWrite p i := by
  cases i <;> simp [writtenParts, MayWrite]

/-- A wait for a key in any of its three branches keeps all but its register and the wait state. -/
theorem execLdKey_keeps {x : Nibble} {s t : State} (h : execLdKey x s = .next t) :
    KeepsAllBut [.regs, .wait] s t := by
  obtain ⟨k, -, rfl⟩ | ⟨-, -, rfl⟩ | ⟨-, -, rfl⟩ := execLdKey_next.1 h
  · exact ((s.setV_keeps x _).trans (State.setWait_keeps _ _ _)).advance
  · exact .refl _ _
  · exact fun p hp => s.setWait_keeps _ _ p fun h => hp (List.mem_cons_of_mem _ h)

/-- An instruction that completes keeps every piece of state that its rule does not write. -/
theorem exec_keeps {i : Instr} {s t : State} (h : exec i s = .next t) :
    KeepsAllBut (writtenParts i) s t := by
  cases i with
  | cls => cases h; exact (s.setDisp_keeps _).advance
  | ret =>
    obtain ⟨a, u, hpop, -, rfl⟩ := execRet_next.1 h
    exact (State.pop_keeps hpop).setPc a
  | sys nnn => cases h
  | jp _ | jpV0 _ => exact setPC_keeps h
  | call nnn =>
    obtain ⟨u, hpush, -, -, rfl⟩ := execCall_next.1 h
    exact (State.push_keeps hpush).setPc _
  | seImm _ _ | sneImm _ _ | seReg _ _ | sneReg _ _ | skp _ | sknp _ => cases h; exact s.skipIf_keeps _
  | ldImm x _ | addImm x _ | ldReg x _ | ldFromDt x => cases h; exact (s.setV_keeps x _).advance
  | orReg x _ | andReg x _ | xorReg x _ => cases h; exact writeLogic_keeps s x _
  | addReg x _ | subReg x _ | shrReg x _ | subnReg x _ | shlReg x _ =>
    cases h; exact writeResultFlag_keeps s x _ _
  | ldI _ | addI _ | ldFont _ => cases h; exact (s.setI_keeps _).advance
  | rnd x kk => cases h; exact (s.countDraw_keeps.trans (s.countDraw.setV_keeps x _)).advance
  | drw x y n =>
    obtain ⟨_, d, -, -, rfl⟩ := execDrw_next.1 h
    exact ((s.setDisp_keeps d.1).trans (State.setV_keeps _ _ _)).advance
  | ldKey x => exact execLdKey_keeps h
  | ldDt x => cases h; exact (s.setDt_keeps _).advance
  | ldSt x => cases h; exact (s.setSt_keeps _).advance
  | ldBcd x =>
    obtain ⟨m, -, rfl⟩ := execLdBcd_next.1 h
    exact (s.setMem_keeps m).advance
  | storeRegs x =>
    obtain ⟨m, -, rfl⟩ := execStoreRegs_next.1 h
    exact ((s.setMem_keeps m).trans (State.setI_keeps _ _)).advance
  | loadRegs x =>
    obtain ⟨bs, -, rfl⟩ := execLoadRegs_next.1 h
    exact ((s.setRegs_keeps _).trans (State.setI_keeps _ _)).advance

/-- Settles O13: what a rule does not name is not among the written parts, so its fields are kept. -/
theorem instructionsWriteOnlyWhatTheirRulesName : Obligations.InstructionsWriteOnlyWhatTheirRulesName := by
  intro i s t p h hp
  exact Part.same_of_kept (exec_keeps h p (mt (mayWrite_of_mem_writtenParts i p) hp))

end Sys2Proof.Machine
end

section
/-! The invariant of the reachable states: kept by every instruction, by every operation and so along
every schedule (00_scope.md R10; 10_state.md R25, R32; 42_flow.md R134). -/

namespace Sys2Proof.Machine

/-! ### Where an instruction leaves PC -/

/-- The values PC may take after an instruction (R24): as it was, past one or two words, at a checked
target, or at a return address that the state holds. -/
inductive NextPc (s : State) : Word → Prop
  | stay : NextPc s s.pc
  | advance : NextPc s (s.pc + 2#16)
  | skip : NextPc s (s.pc + 4#16)
  | target (a : Word) : a.toNat + 1 < 4096 → a.toNat % 2 = 0 → NextPc s a
  | held (j : Fin 16) : j.val < s.sp.val → s.stack[j].toNat + 1 < 4096 → NextPc s s.stack[j]

theorem nextPc_skipIf (s : State) (c : Bool) : NextPc s (s.skipIf c).pc := by
  cases c
  · exact .advance
  · exact .skip

/-- A checked target is its own 16-bit value (R130). -/
theorem NextPc.of_target {s : State} {a : Nat} (hb : a + 1 < 4096) (he : a % 2 = 0) :
    NextPc s (BitVec.ofNat 16 a) := by
  have ha : (BitVec.ofNat 16 a).toNat = a := by rw [BitVec.toNat_ofNat]; omega
  exact .target _ (by omega) (by omega)

theorem nextPc_setPC {a : Nat} {s t : State} (h : setPC a s = .next t) : NextPc s t.pc := by
  obtain ⟨hb, he, rfl⟩ := setPC_next.1 h
  exact .of_target hb he

theorem nextPc_execRet {s t : State} (h : execRet s = .next t) : NextPc s t.pc := by
  obtain ⟨a, u, hpop, hb, rfl⟩ := execRet_next.1 h
  obtain ⟨hsp, rfl, -⟩ := State.pop_some.1 hpop
  exact .held ⟨s.sp.val - 1, by omega⟩ (by simp; omega) hb

theorem nextPc_execLdKey {x : Nibble} {s t : State} (h : execLdKey x s = .next t) : NextPc s t.pc := by
  obtain ⟨k, -, rfl⟩ | ⟨-, -, rfl⟩ | ⟨-, -, rfl⟩ := execLdKey_next.1 h
  · exact .advance
  · exact .stay
  · exact .stay

/-- An instruction that completes moves PC in one of these ways. -/
theorem exec_nextPc {i : Instr} {s t : State} (h : exec i s = .next t) : NextPc s t.pc := by
  cases i with
  | ret => exact nextPc_execRet h
  | sys nnn => cases h
  | jp _ | jpV0 _ => exact nextPc_setPC h
  | call nnn =>
    obtain ⟨u, -, hb, he, rfl⟩ := execCall_next.1 h
    exact .of_target hb he
  | ldKey x => exact nextPc_execLdKey h
  | seImm _ _ | sneImm _ _ | seReg _ _ | sneReg _ _ | skp _ | sknp _ => cases h; exact nextPc_skipIf s _
  | orReg _ _ | andReg _ _ | xorReg _ _ => cases h; rw [writeLogic_pc]; exact .advance
  | drw x y n => obtain ⟨_, _, -, -, rfl⟩ := execDrw_next.1 h; exact .advance
  | ldBcd x => obtain ⟨_, -, rfl⟩ := execLdBcd_next.1 h; exact .advance
  | storeRegs x => obtain ⟨_, -, rfl⟩ := execStoreRegs_next.1 h; exact .advance
  | loadRegs x => obtain ⟨_, -, rfl⟩ := execLoadRegs_next.1 h; exact .advance
  | _ => cases h; exact .advance

/-- From an even PC that can be fetched at, PC stays even and at most 0x1002: a skip at 0xFFE is the
furthest (R25). -/
theorem NextPc.even_and_le {s : State} {a : Word} (h : NextPc s a) (hstack : s.stackOk)
    (heven : s.pc.toNat % 2 = 0) (hpc : s.pc.toNat + 1 < 4096) :
    a.toNat % 2 = 0 ∧ a.toNat ≤ 0x1002 := by
  cases h with
  | stay => omega
  | advance => bv_omega
  | skip => bv_omega
  | target a hb he => omega
  | held j hj hb => exact ⟨(hstack j hj).1, by omega⟩

/-! ### The held return addresses -/

/-- Pushing an even address up to 0x1000 keeps the held addresses so. -/
theorem State.stackOk_push {s u : State} {v : Word} (hs : s.stackOk)
    (hv : v.toNat % 2 = 0 ∧ v.toNat ≤ 0x1000) (h : s.push v = some u) : u.stackOk := by
  obtain ⟨hsp, rfl⟩ := State.push_some.1 h
  intro j hj
  have hj' : j.val < s.sp.val + 1 := hj
  by_cases hjs : s.sp.val = j.val
  · simpa [hjs] using hv
  · simpa [hjs] using hs j (by omega)

theorem State.stackOk_pop {s u : State} {a : Word} (hs : s.stackOk) (h : s.pop = some (a, u)) :
    u.stackOk := by
  obtain ⟨hsp, -, rfl⟩ := State.pop_some.1 h
  intro j hj
  have hj' : j.val < s.sp.val - 1 := hj
  exact hs j (by omega)

/-- The return address of a call is `PC + 2`, at most 0x1000 where the call was fetched (R134). -/
theorem exec_stackOk {i : Instr} {s t : State} (h : exec i s = .next t) (hs : s.stackOk)
    (heven : s.pc.toNat % 2 = 0) (hpc : s.pc.toNat + 1 < 4096) : t.stackOk := by
  by_cases hw : .stack ∈ writtenParts i
  · obtain rfl | ⟨nnn, rfl⟩ := mayWrite_of_mem_writtenParts i _ hw
    · obtain ⟨a, u, hpop, -, rfl⟩ := execRet_next.1 h
      have hu : u.stackOk := State.stackOk_pop hs hpop
      exact hu
    · obtain ⟨u, hpush, -, -, rfl⟩ := execCall_next.1 h
      have hv : (s.pc + 2#16).toNat % 2 = 0 ∧ (s.pc + 2#16).toNat ≤ 0x1000 := by bv_omega
      have hu : u.stackOk := State.stackOk_push hs hv hpush
      exact hu
  · obtain ⟨hsp, hstack⟩ := exec_keeps h .stack hw
    unfold State.stackOk
    rwa [hsp, hstack]

/-! ### Memory and the wait -/

/-- Only a block write changes memory, and it keeps the canonical form. -/
theorem exec_mem_wf {i : Instr} {s t : State} (h : exec i s = .next t) (hs : s.mem.wf = true) :
    t.mem.wf = true := by
  by_cases hw : .mem ∈ writtenParts i
  · obtain ⟨x, rfl | rfl⟩ := mayWrite_of_mem_writtenParts i _ hw
    · obtain ⟨m, hm, rfl⟩ := execLdBcd_next.1 h
      exact memWriteBlock_wf hs hm
    · obtain ⟨m, hm, rfl⟩ := execStoreRegs_next.1 h
      exact memWriteBlock_wf hs hm
  · have hmem : t.mem = s.mem := exec_keeps h .mem hw
    rwa [hmem]

/-- Every branch of LD Vx, K leaves no captured key. -/
theorem exec_wait {i : Instr} {s t : State} (h : exec i s = .next t) (hs : s.await = true → s.capt = none) :
    t.await = true → t.capt = none := by
  by_cases hw : .wait ∈ writtenParts i
  · obtain ⟨x, rfl⟩ := mayWrite_of_mem_writtenParts i _ hw
    obtain ⟨k, -, rfl⟩ | ⟨hc, -, rfl⟩ | ⟨-, -, rfl⟩ := execLdKey_next.1 h
    · exact fun _ => rfl
    · exact fun _ => hc
    · exact fun _ => rfl
  · obtain ⟨ha, hc⟩ := exec_keeps h .wait hw
    rwa [ha, hc]

/-! ### The invariant -/

/-- A fetched instruction that completes keeps the invariant. -/
theorem exec_inv {i : Instr} {s t : State} (h : exec i s = .next t) (hs : s.Inv)
    (hpc : s.pc.toNat + 1 < 4096) : t.Inv :=
  have ⟨heven, hbound⟩ := (exec_nextPc h).even_and_le hs.stack hs.pcEven hpc
  { mem := exec_mem_wf h hs.mem
    pcEven := heven
    pcBound := hbound
    stack := exec_stackOk h hs.stack hs.pcEven hpc
    wait := exec_wait h hs.wait }

theorem step_inv {s t : State} (hs : s.Inv) (h : step s = .next t) : t.Inv := by
  obtain ⟨i, hfetch, hexec⟩ := step_next.1 h
  exact exec_inv hexec hs (fetchInstr_ok.1 hfetch).1

/-- The state after the first `RESET` meets the invariant: empty memory, PC at the entry, nothing held. -/
theorem initial_inv (q : Quirks) (j : Bool) : (State.initial q j).Inv where
  mem := rfl
  pcEven := by simp [State.initial]
  pcBound := by simp [State.initial]
  stack := fun k hk => absurd hk (Nat.not_lt_zero k)
  wait := fun _ => rfl

/-- The invariant speaks of none of the fields that `RESET` leaves alone (R212). -/
theorem opReset_inv (s : State) : (opReset s).Inv :=
  have ⟨hmem, heven, hbound, hstack, hwait⟩ := initial_inv s.q s.qJumpVx
  ⟨hmem, heven, hbound, hstack, hwait⟩

/-- A ROM that is accepted ends within memory (R65). -/
theorem opLoadRom_inv {r : Rom} {s t : State} (hs : s.Inv) (h : opLoadRom r s = .next t) : t.Inv := by
  obtain ⟨hmem, heven, hbound, hstack, hwait⟩ := hs
  cases r with
  | unreadable => cases h
  | bytes bs =>
    rw [opLoadRom] at h
    split at h
    · next hlen =>
      cases h
      exact ⟨Memory.wf_writeBytes hmem (Nat.add_le_add_left hlen 0x200), heven, hbound, hstack, hwait⟩
    · cases h

theorem opTick_inv {s : State} (hs : s.Inv) : (opTick s).Inv :=
  have ⟨hmem, heven, hbound, hstack, hwait⟩ := hs
  ⟨hmem, heven, hbound, hstack, hwait⟩

/-- A captured key ends the wait (R194). -/
theorem opKeyDown_inv {s : State} (k : Nibble) (hs : s.Inv) : (opKeyDown k s).Inv := by
  obtain ⟨hmem, heven, hbound, hstack, hwait⟩ := hs
  unfold opKeyDown
  split
  · exact ⟨hmem, heven, hbound, hstack, Bool.false_ne_true.elim⟩
  · exact ⟨hmem, heven, hbound, hstack, hwait⟩

theorem opKeyUp_inv {s : State} (k : Nibble) (hs : s.Inv) : (opKeyUp k s).Inv :=
  have ⟨hmem, heven, hbound, hstack, hwait⟩ := hs
  ⟨hmem, heven, hbound, hstack, hwait⟩

theorem opSetQuirks_inv {s : State} (q : Quirks) (hs : s.Inv) : (opSetQuirks q s).Inv :=
  have ⟨hmem, heven, hbound, hstack, hwait⟩ := hs
  ⟨hmem, heven, hbound, hstack, hwait⟩

theorem operate_inv {o : Op} {s t : State} (hs : s.Inv) (h : operate o s = .next t) : t.Inv := by
  cases o with
  | step => exact step_inv hs h
  | reset => cases h; exact opReset_inv s
  | loadRom r => exact opLoadRom_inv hs h
  | tick => cases h; exact opTick_inv hs
  | keyDown k => cases h; exact opKeyDown_inv k hs
  | keyUp k => cases h; exact opKeyUp_inv k hs
  | setQuirks q => cases h; exact opSetQuirks_inv q hs

/-- An operation that stops leaves the state it began in (R187). -/
theorem after_inv {s : State} (o : Op) (hs : s.Inv) : (after o s).Inv := by
  unfold after
  split
  · exact operate_inv hs ‹_›
  · exact hs
  · exact hs

theorem afterAll_inv {s : State} (os : List Op) (hs : s.Inv) : (afterAll os s).Inv := by
  induction os generalizing s with
  | nil => exact hs
  | cons o os ih => exact ih (after_inv o hs)

/-- Settles O58: a step by the instruction's own effects on PC, the stack, memory and the wait; the host's
operations each by what they write. -/
theorem operationsKeepTheInvariant : Obligations.OperationsKeepTheInvariant :=
  fun _ _ _ => operate_inv

/-- Settles O12, by induction on the schedule from the state after reset. -/
theorem everyScheduleKeepsTheInvariant : Obligations.EveryScheduleKeepsTheInvariant :=
  fun os q j => afterAll_inv os (initial_inv q j)

end Sys2Proof.Machine
end

section
/-! The invariant at reset and along one step (10_state.md R25, R32, R37). -/

namespace Sys2Proof.Machine

/-- Settles O11: the fetched instruction's effects on PC, the stack, memory and the wait each keep their
part of the invariant. -/
theorem stepKeepsTheInvariant : Obligations.StepKeepsTheInvariant :=
  fun _ _ => step_inv

/-- Settles O10: `State.reset` is the initial state with every switch off. -/
theorem resetMeetsTheInvariant : Obligations.ResetMeetsTheInvariant :=
  ⟨initial_inv _ _, initial_inv⟩

end Sys2Proof.Machine
end

section
/-! Which registers an instruction may write, and where it leaves PC (10_state.md R20 to R22, R24). -/

namespace Sys2Proof.Machine

/-! ### Registers -/

theorem writeLogic_getV_of_ne {s : State} {x r : Nibble} (b : Byte)
    (h : ¬ (r = x ∨ (r = 15#4 ∧ s.q.logicResetVf = true))) : (writeLogic s x b).getV r = s.getV r := by
  obtain ⟨hx, hf⟩ := not_or.1 h
  rw [writeLogic_getV, if_neg fun ⟨hq, hr⟩ => hf ⟨hr, hq⟩, if_neg hx]

theorem writeResultFlag_getV_of_ne {s : State} {x r : Nibble} (b : Byte) (flag : Bool)
    (h : ¬ (r = x ∨ r = 15#4)) : (writeResultFlag s x b flag).getV r = s.getV r := by
  obtain ⟨hx, hf⟩ := not_or.1 h
  rw [writeResultFlag_getV, if_neg hf, if_neg hx]

/-- LD Vx, K writes its register only when it consumes a captured key (R165). -/
theorem execLdKey_getV_of_ne {x r : Nibble} {s t : State} (h : execLdKey x s = .next t)
    (hr : ¬ (r = x ∧ s.capt ≠ none)) : t.getV r = s.getV r := by
  obtain ⟨k, hk, rfl⟩ | ⟨-, -, rfl⟩ | ⟨-, -, rfl⟩ := execLdKey_next.1 h
  · exact State.setV_getV_of_ne s _ fun e => hr ⟨e, by simp [hk]⟩
  · rfl
  · rfl

/-- The block load leaves the registers above X alone (R173). -/
theorem execLoadRegs_getV_of_lt {x r : Nibble} {s t : State} (h : execLoadRegs x s = .next t)
    (hr : ¬ r.toNat ≤ x.toNat) : t.getV r = s.getV r := by
  obtain ⟨bs, hread, rfl⟩ := execLoadRegs_next.1 h
  obtain ⟨-, hok⟩ | ⟨-, herr⟩ := memReadBlock_cases s.mem (dataBase s) (x.toNat + 1)
  · cases hok.symm.trans hread
    rw [State.advance_getV, State.setI_getV, State.setRegs_load_getV, if_neg hr]
  · cases herr.symm.trans hread

/-- Settles O14: each instruction that writes registers by its own rule, every other by its frame. -/
theorem registersWrittenOnlyAsNamed : Obligations.RegistersWrittenOnlyAsNamed := by
  intro i s t r h hr
  cases i with
  | ldImm _ _ | addImm _ _ | ldReg _ _ | ldFromDt _ => cases h; exact State.setV_getV_of_ne s _ hr
  | rnd _ _ => cases h; exact State.setV_getV_of_ne s.countDraw _ hr
  | orReg _ _ | andReg _ _ | xorReg _ _ => cases h; exact writeLogic_getV_of_ne _ hr
  | addReg _ _ | subReg _ _ | subnReg _ _ | shrReg _ _ | shlReg _ _ =>
    cases h; exact writeResultFlag_getV_of_ne _ _ hr
  | drw x y n =>
    obtain ⟨_, d, -, -, rfl⟩ := execDrw_next.1 h
    have hr' : r ≠ 15#4 := hr
    rw [State.advance_getV, State.setVF_getV, if_neg hr', State.setDisp_getV]
  | ldKey x => exact execLdKey_getV_of_ne h hr
  | loadRegs x => exact execLoadRegs_getV_of_lt h hr
  | _ => exact Part.same_of_kept (p := .regs) (exec_keeps h .regs (by simp [writtenParts])) r

/-! ### The program counter -/

/-- A checked target is at most 0xFFE (R130). -/
theorem setPC_pc_le {a : Nat} {s t : State} (h : setPC a s = .next t) : t.pc.toNat ≤ 0xFFE := by
  obtain ⟨hb, -, rfl⟩ := setPC_next.1 h
  rw [State.setPc_pc, BitVec.toNat_ofNat]
  omega

theorem execCall_pc_le {nnn : Addr12} {s t : State} (h : execCall nnn s = .next t) :
    t.pc.toNat ≤ 0xFFE := by
  obtain ⟨u, -, hb, he, rfl⟩ := execCall_next.1 h
  exact setPC_pc_le (setPC_ok (s := u) hb he)

theorem execRet_pc_le {s t : State} (h : execRet s = .next t) : t.pc.toNat ≤ 0xFFE := by
  obtain ⟨a, u, -, hb, rfl⟩ := execRet_next.1 h
  rw [State.setPc_pc]
  omega

theorem execLdKey_pc {x : Nibble} {s t : State} (h : execLdKey x s = .next t) :
    t.pc = s.pc + 2#16 ∨ t.pc = s.pc := by
  obtain ⟨k, -, rfl⟩ | ⟨-, -, rfl⟩ | ⟨-, -, rfl⟩ := execLdKey_next.1 h
  · exact .inl rfl
  · exact .inr rfl
  · exact .inr rfl

theorem skipIf_pc_cases (s : State) (c : Bool) :
    (s.skipIf c).pc = s.pc + 2#16 ∨ (s.skipIf c).pc = s.pc + 4#16 := by
  cases c
  · exact .inl rfl
  · exact .inr rfl

/-- Settles O15: the transfers by their checked target, the skips and LD Vx, K by their cases, every other
instruction by the advance that ends it. -/
theorem pcMovesOnlyInTheFourWays : Obligations.PcMovesOnlyInTheFourWays := by
  intro i s t h
  cases i with
  | sys nnn => cases h
  | jp nnn | jpV0 nnn => exact .inr (.inr (.inl ⟨setPC_pc_le h, .inr ⟨nnn, by simp⟩⟩))
  | call nnn => exact .inr (.inr (.inl ⟨execCall_pc_le h, .inr ⟨nnn, by simp⟩⟩))
  | ret => exact .inr (.inr (.inl ⟨execRet_pc_le h, .inl rfl⟩))
  | seImm _ _ | sneImm _ _ | seReg _ _ | sneReg _ _ | skp _ | sknp _ =>
    cases h
    obtain hpc | hpc := skipIf_pc_cases s _
    · exact .inl ⟨hpc, by simp⟩
    · exact .inr (.inl ⟨hpc, by simp⟩)
  | ldKey x =>
    obtain hpc | hpc := execLdKey_pc h
    · exact .inl ⟨hpc, by simp⟩
    · exact .inr (.inr (.inr ⟨hpc, x, rfl⟩))
  | orReg _ _ | andReg _ _ | xorReg _ _ => cases h; exact .inl ⟨writeLogic_pc _ _ _, by simp⟩
  | drw x y n => obtain ⟨_, _, -, -, rfl⟩ := execDrw_next.1 h; exact .inl ⟨rfl, by simp⟩
  | ldBcd x => obtain ⟨_, -, rfl⟩ := execLdBcd_next.1 h; exact .inl ⟨rfl, by simp⟩
  | storeRegs x => obtain ⟨_, -, rfl⟩ := execStoreRegs_next.1 h; exact .inl ⟨rfl, by simp⟩
  | loadRegs x => obtain ⟨_, -, rfl⟩ := execLoadRegs_next.1 h; exact .inl ⟨rfl, by simp⟩
  | _ => cases h; exact .inl ⟨rfl, by simp⟩

end Sys2Proof.Machine
end

section
/-! What the host reads from the display and from `drew` (10_state.md R28, R39). -/

namespace Sys2Proof.Machine

/-! ### The display -/

/-- The byte the host reads for a cell (R28). -/
def cellByte (lit : Bool) : Byte := if lit then 1#8 else 0#8

theorem toList_flatten_eq_flatMap {α : Type} {m n : Nat} (rows : Vector (Vector α m) n) :
    rows.flatten.toList = rows.toList.flatMap Vector.toList := by
  rw [Vector.flatten, List.flatMap_def, Vector.toList_mk, Array.toList_flatten, Array.toList_map,
    List.map_map]
  rfl

/-- The host's view is the rows of cells, one after the other. -/
theorem displayBytes_eq_flatten (s : State) :
    s.displayBytes = (s.disp.map fun row => row.map cellByte).flatten.toList := by
  rw [toList_flatten_eq_flatMap, Vector.toList_map, List.flatMap_map]
  simp only [Vector.toList_map]
  rfl

/-- Settles O42: byte `64 * y + x` of the flattened rows is in row `y` at column `x`. -/
theorem displayBytesAreRowMajor : Obligations.DisplayBytesAreRowMajor := by
  intro s
  rw [displayBytes_eq_flatten]
  refine ⟨Vector.length_toList, fun x y hx hy => ?_⟩
  have hi : 64 * y + x < 32 * 64 := by omega
  have hrow : (64 * y + x) / 64 = y := by omega
  have hcol : (64 * y + x) % 64 = x := by omega
  rw [List.getElem?_eq_getElem (by simpa using hi), Vector.getElem_toList, Vector.getElem_flatten hi]
  simp [hrow, hcol, cellByte, Display.pixel, Nat.mod_eq_of_lt hx, Nat.mod_eq_of_lt hy]

end Sys2Proof.Machine

namespace Sys2Proof

/-! ### The words that stand for DRW -/

section
variable {op : Word} {x y n : Nibble}

theorem decodeZero_ne_drw : decodeZero op ≠ .ok (.drw x y n) := by
  unfold decodeZero; split_ifs <;> simp

theorem decodeArith_ne_drw : decodeArith op ≠ .ok (.drw x y n) := by
  unfold decodeArith; split <;> simp

theorem decodeKeys_ne_drw : decodeKeys op ≠ .ok (.drw x y n) := by
  unfold decodeKeys; split <;> simp

theorem decodeMisc_ne_drw : decodeMisc op ≠ .ok (.drw x y n) := by
  unfold decodeMisc; split <;> simp

theorem decodeLowZero_eq_ok {i j : Instr} (h : decodeLowZero op i = .ok j) : i = j := by
  unfold decodeLowZero at h
  split_ifs at h
  exact Except.ok.inj h

/-- A word stands for DRW exactly when its family nibble is 0xD (R79). -/
theorem decodeWord_drw_iff :
    (∃ x y n, decodeWord op = .ok (.drw x y n)) ↔ fieldF op = 0xD#4 := by
  constructor
  · rintro ⟨x, y, n, h⟩
    unfold decodeWord at h
    -- the cases in the order of the family nibble: `h_14` is family 0xD
    split at h
    case h_14 hF => exact BitVec.eq_of_toNat_eq hF
    case h_1 => exact absurd h decodeZero_ne_drw
    case h_6 | h_10 => cases decodeLowZero_eq_ok h
    case h_9 => exact absurd h decodeArith_ne_drw
    case h_15 => exact absurd h decodeKeys_ne_drw
    case h_16 => exact absurd h decodeMisc_ne_drw
    all_goals cases h
  · intro hF
    exact ⟨fieldX op, fieldY op, fieldN op, by simp [decodeWord, hF]⟩

end

end Sys2Proof

namespace Sys2Proof.Machine

/-! ### The `drew` result -/

/-- Settles O43: the fetched word of a step that completes is `wordAtPc`, and `drew` reads its family
nibble. -/
theorem drewExactlyForDraw : Obligations.DrewExactlyForDraw := by
  intro s t h
  obtain ⟨i, hfetch, -⟩ := step_next.1 h
  obtain ⟨hpc, -⟩ := fetchInstr_ok.1 hfetch
  have hdrew : s.drew = (fieldF s.wordAtPc == 0xD#4) := by
    simp [State.drew, fetchWord_ok hpc, drewOf]
  simp only [hdrew, beq_iff_eq, fetchInstr_ok, hpc, true_and, decodeWord_drw_iff]

end Sys2Proof.Machine
end

section
/-! What a step does not read: `ST`, `ROM_LOADED` and, outside CALL and RET, the stack slots
(10_state.md R26, R31, R35). -/

namespace Sys2Proof.Machine

/-! ### Updates of unread state -/

/-- `ST`, `ROM_LOADED` and the stack slots, each changed by a function of its own value. -/
def State.mapUnread (s : State) (f : Byte → Byte) (r : Bool → Bool)
    (k : Vector Word 16 → Vector Word 16) : State :=
  { s with st := f s.st, romLoaded := r s.romLoaded, stack := k s.stack }

section
variable {f : Byte → Byte} {r : Bool → Bool} {k : Vector Word 16 → Vector Word 16}

@[simp] theorem State.mapUnread_mem (s : State) : (s.mapUnread f r k).mem = s.mem := rfl
@[simp] theorem State.mapUnread_pc (s : State) : (s.mapUnread f r k).pc = s.pc := rfl
@[simp] theorem State.mapUnread_q (s : State) : (s.mapUnread f r k).q = s.q := rfl
@[simp] theorem State.mapUnread_capt (s : State) : (s.mapUnread f r k).capt = s.capt := rfl
@[simp] theorem State.mapUnread_await (s : State) : (s.mapUnread f r k).await = s.await := rfl
@[simp] theorem State.mapUnread_getV (s : State) (x : Nibble) : (s.mapUnread f r k).getV x = s.getV x := rfl
@[simp] theorem dataBase_mapUnread (s : State) : dataBase (s.mapUnread f r k) = dataBase s := rfl
@[simp] theorem regBlock_mapUnread (s : State) (x : Nibble) :
    regBlock (s.mapUnread f r k) x = regBlock s x := rfl

theorem setPC_mapUnread (a : Nat) (s : State) :
    setPC a (s.mapUnread f r k) = mapNext (·.mapUnread f r k) (setPC a s) := by
  unfold setPC
  split_ifs <;> rfl

theorem writeLogic_mapUnread (s : State) (x : Nibble) (b : Byte) :
    writeLogic (s.mapUnread f r k) x b = (writeLogic s x b).mapUnread f r k := by
  unfold writeLogic
  rw [State.mapUnread_q]
  split_ifs <;> rfl

theorem execLdBcd_mapUnread (x : Nibble) (s : State) :
    execLdBcd x (s.mapUnread f r k) = mapNext (·.mapUnread f r k) (execLdBcd x s) := by
  simp only [execLdBcd, State.mapUnread_mem, dataBase_mapUnread, State.mapUnread_getV]
  cases memWriteBlock s.mem (dataBase s) (bcdDigits (s.getV x)) <;> rfl

theorem execStoreRegs_mapUnread (x : Nibble) (s : State) :
    execStoreRegs x (s.mapUnread f r k) = mapNext (·.mapUnread f r k) (execStoreRegs x s) := by
  simp only [execStoreRegs, State.mapUnread_mem, dataBase_mapUnread, regBlock_mapUnread]
  cases memWriteBlock s.mem (dataBase s) (regBlock s x) <;> rfl

theorem execLoadRegs_mapUnread (x : Nibble) (s : State) :
    execLoadRegs x (s.mapUnread f r k) = mapNext (·.mapUnread f r k) (execLoadRegs x s) := by
  simp only [execLoadRegs, State.mapUnread_mem, dataBase_mapUnread]
  cases memReadBlock s.mem (dataBase s) (x.toNat + 1) <;> rfl

theorem execDrw_mapUnread (x y n : Nibble) (s : State) :
    execDrw x y n (s.mapUnread f r k) = mapNext (·.mapUnread f r k) (execDrw x y n s) := by
  simp only [execDrw, State.mapUnread_mem, dataBase_mapUnread]
  cases memReadBlock s.mem (dataBase s) n.toNat <;> rfl

theorem setWait_mapUnread (s : State) (a : Bool) (c : Option Nibble) :
    (s.mapUnread f r k).setWait a c = (s.setWait a c).mapUnread f r k := rfl

theorem execLdKey_mapUnread (x : Nibble) (s : State) :
    execLdKey x (s.mapUnread f r k) = mapNext (·.mapUnread f r k) (execLdKey x s) := by
  cases hcapt : s.capt with
  | some key => simp only [execLdKey, State.mapUnread_capt, hcapt]; rfl
  | none =>
    cases hawait : s.await with
    | true => simp [execLdKey, hcapt, hawait, mapNext]
    | false => simp [execLdKey, hcapt, hawait, mapNext, setWait_mapUnread]

theorem State.pop_mapUnread (s : State) :
    (s.mapUnread f r id).pop = s.pop.map fun p => (p.1, p.2.mapUnread f r id) := by
  by_cases hsp : 0 < s.sp.val
  · rw [State.pop_of_pos hsp, State.pop_of_pos (s := s.mapUnread f r id) hsp]
    rfl
  · rw [State.pop_of_empty hsp, State.pop_of_empty (s := s.mapUnread f r id) hsp]
    rfl

theorem State.push_mapUnread (s : State) (v : Word) :
    (s.mapUnread f r id).push v = (s.push v).map (·.mapUnread f r id) := by
  by_cases hsp : s.sp.val < 16
  · rw [State.push_of_lt v hsp, State.push_of_lt (s := s.mapUnread f r id) v hsp]
    rfl
  · rw [State.push_of_full v hsp, State.push_of_full (s := s.mapUnread f r id) v hsp]
    rfl

theorem execRet_mapUnread (s : State) :
    execRet (s.mapUnread f r id) = mapNext (·.mapUnread f r id) (execRet s) := by
  unfold execRet
  rw [State.pop_mapUnread]
  cases s.pop with
  | none => rfl
  | some p => simp only [Option.map_some]; split_ifs <;> rfl

theorem execCall_mapUnread (nnn : Addr12) (s : State) :
    execCall nnn (s.mapUnread f r id) = mapNext (·.mapUnread f r id) (execCall nnn s) := by
  unfold execCall
  rw [State.mapUnread_pc, State.push_mapUnread]
  cases s.push (s.pc + 2#16) with
  | none => rfl
  | some u => exact setPC_mapUnread _ u

/-- An instruction commutes with any update of `ST`, `ROM_LOADED` and the stack slots that leaves alone
those of the three that the instruction writes. -/
theorem exec_mapUnread {i : Instr} (hst : .st ∈ writtenParts i → f = id)
    (hstack : .stack ∈ writtenParts i → k = id) (s : State) :
    exec i (s.mapUnread f r k) = mapNext (·.mapUnread f r k) (exec i s) := by
  cases i with
  | ret => cases hstack (by simp [writtenParts]); exact execRet_mapUnread s
  | call nnn => cases hstack (by simp [writtenParts]); exact execCall_mapUnread nnn s
  | ldSt x => cases hst (by simp [writtenParts]); rfl
  | jp _ | jpV0 _ => exact setPC_mapUnread _ s
  | orReg x _ | andReg x _ | xorReg x _ => exact congrArg Host.Outcome.next (writeLogic_mapUnread s x _)
  | drw x y n => exact execDrw_mapUnread x y n s
  | ldKey x => exact execLdKey_mapUnread x s
  | ldBcd x => exact execLdBcd_mapUnread x s
  | storeRegs x => exact execStoreRegs_mapUnread x s
  | loadRegs x => exact execLoadRegs_mapUnread x s
  | _ => rfl

theorem fetchInstr_mapUnread (s : State) : fetchInstr (s.mapUnread f r k) = fetchInstr s := rfl

/-- A step commutes with the update wherever the fetched instruction does. -/
theorem step_mapUnread {s : State} (hst : ∀ i, fetchInstr s = .ok i → .st ∈ writtenParts i → f = id)
    (hstack : ∀ i, fetchInstr s = .ok i → .stack ∈ writtenParts i → k = id) :
    step (s.mapUnread f r k) = mapNext (·.mapUnread f r k) (step s) := by
  unfold step
  rw [fetchInstr_mapUnread]
  cases hfetch : fetchInstr s with
  | error e => rfl
  | ok i => exact exec_mapUnread (hst i hfetch) (hstack i hfetch) s

end

/-- Settles O16: replacing `ST` commutes with every step but LD ST, Vx, which overwrites it. -/
theorem soundTimerIsNeverRead : Obligations.SoundTimerIsNeverRead := by
  intro s b
  constructor
  · intro hno
    refine step_mapUnread (f := fun _ => b) (r := id) (k := id) (fun i hfetch hst => ?_) fun _ _ _ => rfl
    obtain ⟨x, rfl⟩ := mayWrite_of_mem_writtenParts i _ hst
    exact absurd hfetch (hno x)
  · rintro ⟨x, hfetch⟩
    have hfetch' : fetchInstr (s.setSt b) = .ok (.ldSt x) := hfetch
    rw [step_of_fetchInstr hfetch, step_of_fetchInstr hfetch']
    rfl

/-- Settles O17: replacing `ROM_LOADED` commutes with every step, since no instruction writes it. -/
theorem romLoadedIsNeverRead : Obligations.RomLoadedIsNeverRead := fun _ b =>
  step_mapUnread (f := id) (r := fun _ => b) (k := id) (fun _ _ _ => rfl) fun _ _ _ => rfl

/-! ### Dead stack slots -/

/-- The second state is the first with other slots under the same `SP`. -/
theorem sameButDeadSlots_iff {s s' : State} :
    SameButDeadSlots s s' ↔ ∃ stack : Vector Word 16,
      (∀ j : Fin 16, j.val < s.sp.val → stack[j] = s.stack[j]) ∧ s' = s.setStack s.sp stack := by
  constructor
  · rintro ⟨hs', hlive⟩
    exact ⟨s'.stack, hlive, hs'⟩
  · rintro ⟨stack, hlive, rfl⟩
    exact ⟨rfl, hlive⟩

/-- A checked transfer reads and writes no slot. -/
theorem setPC_agree {s s' : State} (h : SameButDeadSlots s s') (a : Nat) :
    OutcomesAgree SameButDeadSlots (setPC a s) (setPC a s') := by
  obtain ⟨stack, hlive, rfl⟩ := sameButDeadSlots_iff.1 h
  unfold setPC
  split_ifs
  · rfl
  · rfl
  · exact ⟨rfl, hlive⟩

/-- A pop reads the newest held slot alone, which is live; fewer slots are live after it. -/
theorem SameButDeadSlots.pop {s s' : State} (h : SameButDeadSlots s s') :
    (s.pop = none ∧ s'.pop = none) ∨
      ∃ a u u', s.pop = some (a, u) ∧ s'.pop = some (a, u') ∧ SameButDeadSlots u u' := by
  obtain ⟨stack, hlive, rfl⟩ := sameButDeadSlots_iff.1 h
  by_cases hsp : 0 < s.sp.val
  · have htop : stack[s.sp.val - 1] = s.stack[s.sp.val - 1] :=
      hlive ⟨s.sp.val - 1, by omega⟩ (Nat.sub_lt hsp Nat.one_pos)
    refine .inr ⟨_, _, _, State.pop_of_pos hsp, State.pop_some.2 ⟨hsp, htop.symm, rfl⟩, rfl, fun j hj => ?_⟩
    exact hlive j (Nat.lt_of_lt_of_le hj (Nat.sub_le _ _))
  · exact .inl ⟨State.pop_of_empty hsp, State.pop_of_empty (s := s.setStack s.sp stack) hsp⟩

/-- A push writes the same value to the first dead slot of both, which becomes live. -/
theorem SameButDeadSlots.push {s s' : State} (h : SameButDeadSlots s s') (v : Word) :
    (s.push v = none ∧ s'.push v = none) ∨
      ∃ u u', s.push v = some u ∧ s'.push v = some u' ∧ SameButDeadSlots u u' := by
  obtain ⟨stack, hlive, rfl⟩ := sameButDeadSlots_iff.1 h
  by_cases hsp : s.sp.val < 16
  · refine .inr ⟨_, _, State.push_of_lt v hsp, State.push_some.2 ⟨hsp, rfl⟩, rfl, fun j hj => ?_⟩
    have hj' : j.val < s.sp.val + 1 := hj
    by_cases hjs : s.sp.val = j.val
    · simp [hjs]
    · simpa [hjs] using hlive j (by omega)
  · exact .inl ⟨State.push_of_full v hsp, State.push_of_full (s := s.setStack s.sp stack) v hsp⟩

theorem execRet_agree {s s' : State} (h : SameButDeadSlots s s') :
    OutcomesAgree SameButDeadSlots (execRet s) (execRet s') := by
  unfold execRet
  obtain ⟨hpop, hpop'⟩ | ⟨a, u, u', hpop, hpop', hu⟩ := h.pop
  · rw [hpop, hpop']
    rfl
  · obtain ⟨stack, hlive, rfl⟩ := sameButDeadSlots_iff.1 hu
    rw [hpop, hpop']
    dsimp only
    split_ifs
    · rfl
    · exact ⟨rfl, hlive⟩

theorem execCall_agree {s s' : State} (h : SameButDeadSlots s s') (nnn : Addr12) :
    OutcomesAgree SameButDeadSlots (execCall nnn s) (execCall nnn s') := by
  have hpc : s'.pc = s.pc := by rw [h.1]
  unfold execCall
  rw [hpc]
  obtain ⟨hpush, hpush'⟩ | ⟨u, u', hpush, hpush', hu⟩ := h.push (s.pc + 2#16)
  · rw [hpush, hpush']
    rfl
  · rw [hpush, hpush']
    exact setPC_agree hu _

/-- Every instruction but CALL and RET commutes with replacing the slots, and keeps those that are live. -/
theorem exec_agree {s s' : State} (h : SameButDeadSlots s s') (i : Instr) :
    OutcomesAgree SameButDeadSlots (exec i s) (exec i s') := by
  by_cases hw : .stack ∈ writtenParts i
  · obtain rfl | ⟨nnn, rfl⟩ := mayWrite_of_mem_writtenParts i _ hw
    · exact execRet_agree h
    · exact execCall_agree h nnn
  · obtain ⟨stack, hlive, rfl⟩ := sameButDeadSlots_iff.1 h
    have hcomm : exec i (s.setStack s.sp stack) = mapNext (·.mapUnread id id fun _ => stack) (exec i s) :=
      exec_mapUnread (r := id) (k := fun _ => stack) (fun _ => rfl) (fun hw' => absurd hw' hw) s
    rw [hcomm]
    cases hexec : exec i s with
    | fault f => rfl
    | refused r => rfl
    | next t =>
      obtain ⟨hsp, hstack⟩ := exec_keeps hexec .stack hw
      refine ⟨rfl, fun j hj => ?_⟩
      rw [hsp] at hj
      rw [hstack]
      exact hlive j hj

/-- Settles O18: the fetch reads no slot, and the fetched instruction agrees. -/
theorem deadStackSlotsAreUnobservable : Obligations.DeadStackSlotsAreUnobservable := by
  intro s s' h
  have hfetch : fetchInstr s' = fetchInstr s := by
    obtain ⟨stack, -, rfl⟩ := sameButDeadSlots_iff.1 h
    rfl
  unfold step
  rw [hfetch]
  cases fetchInstr s with
  | error e => rfl
  | ok i => exact exec_agree h i

end Sys2Proof.Machine
end

section
/-! Memory as the fetch, the block store and `LOAD_ROM` see it (20_memory.md R53, R57, R61, R65). -/

namespace Sys2Proof.Machine

/-! ### The fetch -/

theorem step_of_fetchWord_error {s : State} {f : Fault} (h : fetchWord s = .error f) :
    step s = .fault f := by
  rw [step, fetchInstr, h]
  rfl

/-- Settles O6: the fetch reports PC, and the step passes the report on. -/
theorem fetchOutOfBoundsFaults : Obligations.FetchOutOfBoundsFaults := by
  intro s hpc
  exact step_of_fetchWord_error (fetchWord_error (by omega))

/-! ### The block store -/

/-- A block store that completes wrote V0 to VX whole, inside memory (R62, R172). -/
theorem execStoreRegs_writeBytes {x : Nibble} {s t : State} (h : execStoreRegs x s = .next t) :
    dataBase s + (regBlock s x).length ≤ 4096 ∧
      t = ((s.setMem (s.mem.writeBytes (dataBase s) (regBlock s x))).setI
        (indexAfterBlock s x)).advance := by
  obtain ⟨m, hwrite, rfl⟩ := execStoreRegs_next.1 h
  obtain ⟨hfits, hok⟩ | ⟨-, herr⟩ := memWriteBlock_cases s.mem (dataBase s) (regBlock s x)
  · cases hok.symm.trans hwrite
    rw [length_regBlock] at hfits ⊢
    exact ⟨by omega, rfl⟩
  · cases herr.symm.trans hwrite

/-- After a block store the byte at `I + k` is `V[k]`, and it lies inside memory. -/
theorem execStoreRegs_read {x k : Nibble} {s t : State} (hm : s.mem.wf = true)
    (h : execStoreRegs x s = .next t) (hk : k.toNat ≤ x.toNat) :
    dataBase s + k.toNat < 4096 ∧ t.mem.read (dataBase s + k.toNat) = s.getV k := by
  obtain ⟨hfits, rfl⟩ := execStoreRegs_writeBytes h
  have hlen : k.toNat < (regBlock s x).length := by rw [length_regBlock]; omega
  refine ⟨by omega, ?_⟩
  rw [State.advance_mem, State.setI_mem, State.setMem_mem,
    Memory.read_writeBytes_inside hm hfits hlen, getElem_regBlock]
  rfl

/-- Settles O9: both bytes at PC are bytes of the block, and the second lies inside memory. -/
theorem fetchSeesTheLastStore : Obligations.FetchSeesTheLastStore := by
  intro s t x k l hm h hl hkl hpc
  have hpc' : t.pc.toNat = dataBase s + k.toNat := hpc
  have hpcl : t.pc.toNat + 1 = dataBase s + l.toNat := by omega
  obtain ⟨-, hhigh⟩ := execStoreRegs_read (k := k) hm h (by omega)
  obtain ⟨hbound, hlow⟩ := execStoreRegs_read hm h hl
  rw [fetchWord_ok (by omega), State.wordAtPc, hpcl, hpc', hhigh, hlow]

/-! ### `LOAD_ROM` -/

/-- The state `LOAD_ROM` leaves: the bytes from the entry address on, and `ROM_LOADED` set (R65). -/
def State.withRom (s : State) (bs : List Byte) : State :=
  { s.setMem (s.mem.writeBytes 0x200 bs) with romLoaded := true }

section
variable {s : State} {bs : List Byte}

theorem opLoadRom_bytes_of_le (h : bs.length ≤ 3584) :
    opLoadRom (.bytes bs) s = .next (s.withRom bs) := if_pos h

theorem opLoadRom_bytes_of_gt (h : 3584 < bs.length) :
    opLoadRom (.bytes bs) s = .fault .romLoadError := if_neg (Nat.not_le.2 h)

theorem State.withRom_read (hm : s.mem.wf = true) (h : bs.length ≤ 3584) (j : Nat)
    (hj : j < bs.length) : (s.withRom bs).mem.read (0x200 + j) = bs[j] :=
  Memory.read_writeBytes_inside hm (by omega) hj

theorem State.withRom_sameMemOutside (hm : s.mem.wf = true) (h : bs.length ≤ 3584) :
    SameMemOutside 0x200 bs.length s (s.withRom bs) :=
  fun _ ha => Memory.read_writeBytes_outside hm (by omega) ha

theorem State.withRom_frame (s : State) (bs : List Byte) :
    OnlyChanges [.mem, .romLoaded] s (s.withRom bs) := by
  intro p hp
  cases p with
  | mem | romLoaded => simp at hp
  | stack | wait => exact Part.same_of_kept ⟨rfl, rfl⟩
  | _ => exact Part.same_of_kept rfl

end

/-- An operation that faults leaves the state it began in (R187). -/
theorem after_of_fault {o : Op} {s : State} {f : Fault} (h : operate o s = .fault f) :
    after o s = s := by
  rw [after, h]

/-- Settles O55: a ROM that is accepted ends within memory, and any other is a fault. -/
theorem loadRomCopiesVerbatim : Obligations.LoadRomCopiesVerbatim := by
  intro bs s
  have hunreadable : operate (.loadRom .unreadable) s = .fault .romLoadError := rfl
  refine ⟨fun hm hlen => ⟨s.withRom bs, opLoadRom_bytes_of_le hlen, State.withRom_read hm hlen,
    State.withRom_sameMemOutside hm hlen, rfl, rfl, State.withRom_frame s bs⟩, fun hlen => ?_,
    hunreadable, after_of_fault hunreadable⟩
  have hlong : operate (.loadRom (.bytes bs)) s = .fault .romLoadError := opLoadRom_bytes_of_gt hlen
  exact ⟨hlong, after_of_fault hlong⟩

end Sys2Proof.Machine
end

section
/-! Decoding and encoding are inverse to each other (30_encoding.md R79, R80, R85). -/

namespace Sys2Proof

/-! ### A word decodes to an instruction that it encodes -/

/-- The word is the encoding of a well-formed instruction: it stands for `i` (R79, R85). -/
def Instr.HasWord (i : Instr) (op : Word) : Prop := i.wellFormed = true ∧ encode i = op

section
variable {op : Word} {i j : Instr}

/-- A word of family 0 is its address field, so the field of a SYS word is neither 0x0E0 nor 0x0EE. -/
theorem hasWord_of_decodeZero (hF : fieldF op = 0x0#4) (h : decodeZero op = .ok i) : i.HasWord op := by
  have hop : encodeNNN 0x0000#16 (fieldNNN op) = op := encodeNNN_fields hF rfl
  unfold decodeZero at h
  split_ifs at h with hcls hret
  · cases h; exact ⟨rfl, hcls.symm⟩
  · cases h; exact ⟨rfl, hret.symm⟩
  · cases h
    have hE0 : fieldNNN op ≠ 0x0E0#12 := fun hN => hcls (by rw [← hop, hN]; rfl)
    have hEE : fieldNNN op ≠ 0x0EE#12 := fun hN => hret (by rw [← hop, hN]; rfl)
    exact ⟨by simp [Instr.wellFormed, hE0, hEE], hop⟩

theorem hasWord_of_decodeLowZero (h : decodeLowZero op i = .ok j)
    (hi : fieldN op = 0x0#4 → i.HasWord op) : j.HasWord op := by
  unfold decodeLowZero at h
  split_ifs at h with hN
  cases h
  exact hi hN

theorem hasWord_of_decodeArith (hF : fieldF op = 0x8#4) (h : decodeArith op = .ok i) : i.HasWord op := by
  unfold decodeArith at h
  split at h
  all_goals cases h
  all_goals rename_i hN; exact ⟨rfl, encodeXY_fields hF (BitVec.eq_of_toNat_eq hN) rfl⟩

theorem hasWord_of_decodeKeys (hF : fieldF op = 0xE#4) (h : decodeKeys op = .ok i) : i.HasWord op := by
  unfold decodeKeys at h
  split at h
  all_goals cases h
  all_goals rename_i hKK; exact ⟨rfl, encodeX_fields hF (BitVec.eq_of_toNat_eq hKK) rfl⟩

theorem hasWord_of_decodeMisc (hF : fieldF op = 0xF#4) (h : decodeMisc op = .ok i) : i.HasWord op := by
  unfold decodeMisc at h
  split at h
  all_goals cases h
  all_goals rename_i hKK; exact ⟨rfl, encodeX_fields hF (BitVec.eq_of_toNat_eq hKK) rfl⟩

/-- The word of the instruction that a word decodes to is that word again (R85). -/
theorem hasWord_of_decodeWord (h : decodeWord op = .ok i) : i.HasWord op := by
  unfold decodeWord at h
  -- the cases in the order of the family nibble: `h_1` is family 0
  split at h
  case h_1 hF => exact hasWord_of_decodeZero (BitVec.eq_of_toNat_eq hF) h
  case h_2 hF | h_3 hF | h_11 hF | h_12 hF =>
    cases h; exact ⟨rfl, encodeNNN_fields (BitVec.eq_of_toNat_eq hF) rfl⟩
  case h_4 hF | h_5 hF | h_7 hF | h_8 hF | h_13 hF =>
    cases h; exact ⟨rfl, encodeXKK_fields (BitVec.eq_of_toNat_eq hF) rfl⟩
  case h_6 hF | h_10 hF =>
    exact hasWord_of_decodeLowZero h fun hN =>
      ⟨rfl, encodeXY_fields (BitVec.eq_of_toNat_eq hF) hN rfl⟩
  case h_9 hF => exact hasWord_of_decodeArith (BitVec.eq_of_toNat_eq hF) h
  case h_14 hF => cases h; exact ⟨rfl, encodeXYN_fields (BitVec.eq_of_toNat_eq hF) rfl⟩
  case h_15 hF => exact hasWord_of_decodeKeys (BitVec.eq_of_toNat_eq hF) h
  case h_16 hF => exact hasWord_of_decodeMisc (BitVec.eq_of_toNat_eq hF) h
  case h_17 => cases h

end

/-! ### The word of an instruction decodes to it -/

theorem fieldX_eq_ofNat (w : Nat) : fieldX (BitVec.ofNat 16 w) = BitVec.ofNat 4 (w / 256) :=
  BitVec.eq_of_toNat_eq (by rw [fieldX_ofNat, BitVec.toNat_ofNat])

theorem fieldY_eq_ofNat (w : Nat) : fieldY (BitVec.ofNat 16 w) = BitVec.ofNat 4 (w / 16) :=
  BitVec.eq_of_toNat_eq (by rw [fieldY_ofNat, BitVec.toNat_ofNat])

theorem fieldN_eq_ofNat (w : Nat) : fieldN (BitVec.ofNat 16 w) = BitVec.ofNat 4 w :=
  BitVec.eq_of_toNat_eq (by rw [fieldN_ofNat, BitVec.toNat_ofNat])

theorem fieldKK_eq_ofNat (w : Nat) : fieldKK (BitVec.ofNat 16 w) = BitVec.ofNat 8 w :=
  BitVec.eq_of_toNat_eq (by rw [fieldKK_ofNat, BitVec.toNat_ofNat])

theorem fieldNNN_eq_ofNat (w : Nat) : fieldNNN (BitVec.ofNat 16 w) = BitVec.ofNat 12 w :=
  BitVec.eq_of_toNat_eq (by rw [fieldNNN_ofNat, BitVec.toNat_ofNat])

/-- Over a `match` without address bits, different addresses give different words. -/
theorem encodeNNN_injective {m : Word} (hm : fieldNNN m = 0#12) : Function.Injective (encodeNNN m) := by
  intro a b h
  simpa [fieldNNN_encodeNNN, hm] using congrArg fieldNNN h

theorem decodeZero_encodeNNN {nnn : Addr12} (hE0 : nnn ≠ 0x0E0#12) (hEE : nnn ≠ 0x0EE#12) :
    decodeZero (encodeNNN 0x0000#16 nnn) = .ok (.sys nnn) := by
  have hcls : encodeNNN 0x0000#16 nnn ≠ 0x00E0#16 := (encodeNNN_injective rfl).ne hE0
  have hret : encodeNNN 0x0000#16 nnn ≠ 0x00EE#16 := (encodeNNN_injective rfl).ne hEE
  rw [decodeZero, if_neg hcls, if_neg hret, fieldNNN_encodeNNN, fieldNNN_eq_ofNat, BitVec.zero_or]

theorem decodeWord_encode {i : Instr} (hwf : i.wellFormed = true) : decodeWord (encode i) = .ok i := by
  cases i with
  | cls | ret => rfl
  | sys nnn =>
    obtain ⟨hE0, hEE⟩ : nnn ≠ 0x0E0#12 ∧ nnn ≠ 0x0EE#12 := by simpa [Instr.wellFormed] using hwf
    simpa [encode, decodeWord, fieldF_encodeNNN, fieldF_ofNat] using decodeZero_encodeNNN hE0 hEE
  | jp nnn | call nnn | ldI nnn | jpV0 nnn =>
    simp [encode, decodeWord, fieldF_encodeNNN, fieldF_ofNat, fieldNNN_encodeNNN, fieldNNN_eq_ofNat]
  | seImm x kk | sneImm x kk | ldImm x kk | addImm x kk | rnd x kk =>
    simp [encode, decodeWord, fieldF_encodeXKK, fieldF_ofNat, fieldX_encodeXKK, fieldX_eq_ofNat,
      fieldKK_encodeXKK, fieldKK_eq_ofNat]
  | seReg x y | sneReg x y =>
    simp [encode, decodeWord, fieldF_encodeXY, fieldF_ofNat, decodeLowZero, fieldN_encodeXY,
      fieldN_eq_ofNat, fieldX_encodeXY, fieldX_eq_ofNat, fieldY_encodeXY, fieldY_eq_ofNat]
  | ldReg x y | orReg x y | andReg x y | xorReg x y | addReg x y | subReg x y | shrReg x y
  | subnReg x y | shlReg x y =>
    simp [encode, decodeWord, fieldF_encodeXY, fieldF_ofNat, decodeArith, fieldN_encodeXY,
      fieldN_eq_ofNat, fieldX_encodeXY, fieldX_eq_ofNat, fieldY_encodeXY, fieldY_eq_ofNat]
  | drw x y n =>
    simp [encode, decodeWord, fieldF_encodeXYN, fieldF_ofNat, fieldX_encodeXYN, fieldX_eq_ofNat,
      fieldY_encodeXYN, fieldY_eq_ofNat, fieldN_encodeXYN, fieldN_eq_ofNat]
  | skp x | sknp x =>
    simp [encode, decodeWord, fieldF_encodeX, fieldF_ofNat, decodeKeys, fieldKK_encodeX, fieldKK_eq_ofNat,
      fieldX_encodeX, fieldX_eq_ofNat]
  | ldFromDt x | ldKey x | ldDt x | ldSt x | addI x | ldFont x | ldBcd x | storeRegs x | loadRegs x =>
    simp [encode, decodeWord, fieldF_encodeX, fieldF_ofNat, decodeMisc, fieldKK_encodeX, fieldKK_eq_ofNat,
      fieldX_encodeX, fieldX_eq_ofNat]

/-! ### Byte streams -/

/-- A stream of at least two bytes decodes by its first word, and the rest is handed back (R75). -/
theorem decodeBytes_cons_cons {hi lo : Byte} {rest rest' : List Byte} {i : Instr} :
    decodeBytes (hi :: lo :: rest) = .ok (i, rest') ↔
      decodeWord (wordOfBytes hi lo) = .ok i ∧ rest' = rest := by
  rw [decodeBytes]
  cases decodeWord (wordOfBytes hi lo) <;> simp [eq_comm]

theorem encodeBytes_of_encode {i : Instr} {hi lo : Byte} (h : encode i = wordOfBytes hi lo) :
    encodeBytes i = [hi, lo] := by
  rw [encodeBytes, h, highByte_wordOfBytes, lowByte_wordOfBytes]

/-- Settles O2: the two encoded bytes make the instruction's word, which decodes to it. -/
theorem decodeOfEncodeIsIdentity : Obligations.DecodeOfEncodeIsIdentity := by
  intro i rest hwf
  refine decodeBytes_cons_cons.2 ⟨?_, rfl⟩
  rw [wordOfBytes_high_low, decodeWord_encode hwf]

/-- Settles O3: the word of the decoded instruction is the word of the two bytes, which has no other
bytes. -/
theorem encodeOfDecodeIsIdentity : Obligations.EncodeOfDecodeIsIdentity := by
  intro hi lo rest rest' i h
  obtain ⟨hdec, hrest⟩ := decodeBytes_cons_cons.1 h
  obtain ⟨hwf, hword⟩ := hasWord_of_decodeWord hdec
  exact ⟨hwf, encodeBytes_of_encode hword, hrest⟩

/-- Settles O1: fixed words, so the decoder is run on each. -/
theorem specWordsDecode : Obligations.SpecWordsDecode := by
  unfold Obligations.SpecWordsDecode
  decide

end Sys2Proof
end

section
/-! The instructions that can fault: when each one does and with which report, said once
(60_exceptions.md R180). -/

namespace Sys2Proof.Machine

section
variable {s : State} {f : Fault}

theorem memReadBlock_eq_error {m : Memory} {a n : Nat} : memReadBlock m a n = .error f ↔
    (0 < n ∧ 4096 < a + n) ∧ f = .memoryOutOfBounds (max a 4096) := by
  rw [← dataFault_eq_some, memReadBlock]
  cases dataFault a n <;> simp

theorem memWriteBlock_eq_error {m : Memory} {a : Nat} {bs : List Byte} : memWriteBlock m a bs = .error f ↔
    (0 < bs.length ∧ 4096 < a + bs.length) ∧ f = .memoryOutOfBounds (max a 4096) := by
  rw [← dataFault_eq_some, memWriteBlock]
  cases dataFault a bs.length <;> simp

theorem execLdBcd_fault {x : Nibble} : execLdBcd x s = .fault f ↔
    memWriteBlock s.mem (dataBase s) (bcdDigits (s.getV x)) = .error f := by
  unfold execLdBcd
  cases memWriteBlock s.mem (dataBase s) (bcdDigits (s.getV x)) <;> simp [raise]

theorem execStoreRegs_fault {x : Nibble} : execStoreRegs x s = .fault f ↔
    memWriteBlock s.mem (dataBase s) (regBlock s x) = .error f := by
  unfold execStoreRegs
  cases memWriteBlock s.mem (dataBase s) (regBlock s x) <;> simp [raise]

theorem execLoadRegs_fault {x : Nibble} : execLoadRegs x s = .fault f ↔
    memReadBlock s.mem (dataBase s) (x.toNat + 1) = .error f := by
  unfold execLoadRegs
  cases memReadBlock s.mem (dataBase s) (x.toNat + 1) <;> simp [raise]

theorem execDrw_fault {x y n : Nibble} : execDrw x y n s = .fault f ↔
    memReadBlock s.mem (dataBase s) n.toNat = .error f := by
  unfold execDrw
  cases memReadBlock s.mem (dataBase s) n.toNat <;> simp [raise]

theorem execRet_fault : execRet s = .fault f ↔
    (s.pop = none ∧ f = .stackUnderflow) ∨
      ∃ a u, s.pop = some (a, u) ∧ 4096 ≤ a.toNat + 1 ∧ f = .memoryOutOfBounds a.toNat := by
  unfold execRet
  cases s.pop with
  | none => simp [raise, eq_comm]
  | some au =>
    obtain ⟨a, u⟩ := au
    by_cases hb : 4095 ≤ a.toNat
    · simp [targetOutOfBounds, Config.memSize, hb, raise, eq_comm]
    · simp [targetOutOfBounds, Config.memSize, hb]

theorem execCall_fault {nnn : Addr12} : execCall nnn s = .fault f ↔
    (s.push (s.pc + 2#16) = none ∧ f = .stackOverflow) ∨
      ∃ u, s.push (s.pc + 2#16) = some u ∧ setPC nnn.toNat u = .fault f := by
  unfold execCall
  cases s.push (s.pc + 2#16) with
  | none => simp [raise, eq_comm]
  | some u => simp [zextAddr_toNat]

theorem execLdKey_ne_fault {x : Nibble} : execLdKey x s ≠ .fault f := by
  unfold execLdKey
  cases s.capt with
  | some k => simp
  | none => cases s.await <;> simp

end

end Sys2Proof.Machine
end

section
/-! Where a step reports `UnknownOpcode`: the decoder's illegal words and SYS (30_encoding.md R81, R82;
60_exceptions.md R180, R181). -/

namespace Sys2Proof

/-! ### Fields of a word by number -/

theorem fieldF_toNat (op : Word) : (fieldF op).toNat = op.toNat / 4096 := by
  have := op.isLt
  simp [fieldF, BitVec.extractLsb'_toNat, Nat.shiftRight_eq_div_pow]; omega

theorem fieldN_toNat (op : Word) : (fieldN op).toNat = op.toNat % 16 := by
  simp [fieldN, BitVec.extractLsb'_toNat]

theorem fieldKK_toNat (op : Word) : (fieldKK op).toNat = op.toNat % 256 := by
  simp [fieldKK, BitVec.extractLsb'_toNat]

/-! ### Which words are reported, family by family -/

/-- What the decoder makes of a word ends in the report `UnknownOpcode`: an illegal word (R81), or SYS,
whose one meaning that report is (R82, R135). -/
def Reported (r : Except DecodeError Instr) : Prop :=
  (∃ e, r = .error e) ∨ ∃ nnn, r = .ok (.sys nnn)

@[simp] theorem reported_error (e : DecodeError) : Reported (.error e) := .inl ⟨e, rfl⟩

@[simp] theorem reported_ok {i : Instr} : Reported (.ok i) ↔ ∃ nnn, i = .sys nnn := by
  simp [Reported]

section
variable {op : Word}

theorem reported_decodeZero : Reported (decodeZero op) ↔ op.toNat ≠ 0x00E0 ∧ op.toNat ≠ 0x00EE := by
  have hcls : op = 0x00E0#16 ↔ op.toNat = 0x00E0 := by simp [← BitVec.toNat_inj]
  have hret : op = 0x00EE#16 ↔ op.toNat = 0x00EE := by simp [← BitVec.toNat_inj]
  rw [decodeZero]
  split_ifs <;> simp_all

theorem reported_decodeLowZero {i : Instr} (hi : ∀ nnn, i ≠ .sys nnn) :
    Reported (decodeLowZero op i) ↔ op.toNat % 16 ≠ 0 := by
  have hN : fieldN op = 0#4 ↔ op.toNat % 16 = 0 := by rw [← fieldN_toNat, ← BitVec.toNat_inj]; rfl
  rw [decodeLowZero]
  split_ifs <;> simp_all

theorem reported_decodeArith :
    Reported (decodeArith op) ↔ op.toNat % 16 ∈ [0x8, 0x9, 0xA, 0xB, 0xC, 0xD, 0xF] := by
  rw [← fieldN_toNat]
  have := (fieldN op).lt_sixteen
  unfold decodeArith
  split
  -- the nibbles without a row
  case h_10 => simp_all; omega
  all_goals simp [*]

theorem reported_decodeKeys : Reported (decodeKeys op) ↔ op.toNat % 256 ∉ [0x9E, 0xA1] := by
  rw [← fieldKK_toNat]
  unfold decodeKeys
  split <;> simp_all

theorem reported_decodeMisc : Reported (decodeMisc op) ↔
    op.toNat % 256 ∉ [0x07, 0x0A, 0x15, 0x18, 0x1E, 0x29, 0x33, 0x55, 0x65] := by
  rw [← fieldKK_toNat]
  unfold decodeMisc
  split <;> simp_all

/-- The illegal words of R81 and the SYS words are exactly those that end in the report. -/
theorem reported_decodeWord : Reported (decodeWord op) ↔ IllegalWord op := by
  have hF := fieldF_toNat op
  unfold decodeWord IllegalWord
  -- the cases in the order of the family nibble: `h_1` is family 0
  split
  case h_1 h => simp [← hF, h, reported_decodeZero]
  case h_6 h | h_10 h => simp [← hF, h, reported_decodeLowZero]
  case h_9 h => simp [← hF, h, reported_decodeArith]
  case h_15 h => simp [← hF, h, reported_decodeKeys]
  case h_16 h => simp [← hF, h, reported_decodeMisc]
  -- no family nibble is left
  case h_17 =>
    have hlt := (fieldF op).lt_sixteen
    interval_cases (fieldF op).toNat <;> contradiction
  case h_2 h | h_3 h | h_4 h | h_5 h | h_7 h | h_8 h | h_11 h | h_12 h | h_13 h | h_14 h =>
    simp [← hF, h]

end

end Sys2Proof

namespace Sys2Proof.Machine

/-! ### Which steps report `UnknownOpcode` -/

/-- SYS alone reports `UnknownOpcode`, of its own word (R135, R181). -/
theorem exec_unknownOpcode {i : Instr} {s : State} {op : Word} :
    exec i s = .fault (.unknownOpcode op) ↔ ∃ nnn, i = .sys nnn ∧ op = zextAddr nnn := by
  cases i with
  | sys nnn => simp [exec, execSys, raise, eq_comm]
  | ret => simp [exec, execRet_fault]
  | call nnn => simp [exec, execCall_fault, setPC_fault]
  | jp nnn => simp [exec, execJp, setPC_fault]
  | jpV0 nnn => simp [exec, execJpV0, setPC_fault]
  | drw x y n => simp [exec, execDrw_fault, memReadBlock_eq_error]
  | ldBcd x => simp [exec, execLdBcd_fault, memWriteBlock_eq_error]
  | storeRegs x => simp [exec, execStoreRegs_fault, memWriteBlock_eq_error]
  | loadRegs x => simp [exec, execLoadRegs_fault, memReadBlock_eq_error]
  | ldKey x => simp [exec, execLdKey_ne_fault]
  | _ => exact ⟨(fun h => nomatch h), fun ⟨_, h, _⟩ => nomatch h⟩

/-- The fetch of a word that no instruction decodes from reports it; a fetch outside memory does not. -/
theorem fetchInstr_unknownOpcode {s : State} {op : Word} :
    fetchInstr s = .error (.unknownOpcode op) ↔
      s.pc.toNat + 1 < 4096 ∧ op = s.wordAtPc ∧ ∃ e, decodeWord s.wordAtPc = .error e := by
  unfold fetchInstr
  by_cases hpc : s.pc.toNat + 1 < 4096
  · rw [fetchWord_ok hpc]
    cases hdec : decodeWord s.wordAtPc <;> simp [hdec, hpc, eq_comm]
  · simp [fetchWord_error hpc, hpc]

theorem step_fault {s : State} {f : Fault} : step s = .fault f ↔
    fetchInstr s = .error f ∨ ∃ i, fetchInstr s = .ok i ∧ exec i s = .fault f := by
  unfold step
  cases fetchInstr s <;> simp [raise]

/-- The word that SYS reports is the word it was decoded from (R135). -/
theorem zextAddr_of_decodeWord_sys {op : Word} {nnn : Addr12} (h : decodeWord op = .ok (.sys nnn)) :
    zextAddr nnn = op := by
  obtain ⟨-, hword⟩ := hasWord_of_decodeWord h
  simpa [encode, encodeNNN, zextAddr] using hword

/-- Settles O4: a step reports the word that the decoder or, decoded to SYS, the instruction reports. -/
theorem unknownOpcodeExactlyOnIllegalWords : Obligations.UnknownOpcodeExactlyOnIllegalWords := by
  intro s op
  rw [step_fault, fetchInstr_unknownOpcode]
  constructor
  · rintro (⟨hpc, hop, herr⟩ | ⟨i, hfetch, hexec⟩)
    · rw [hop]
      exact ⟨by omega, rfl, reported_decodeWord.1 (.inl herr)⟩
    · obtain ⟨hpc, hdec⟩ := fetchInstr_ok.1 hfetch
      obtain ⟨nnn, rfl, hop⟩ := exec_unknownOpcode.1 hexec
      rw [hop, zextAddr_of_decodeWord_sys hdec]
      exact ⟨by omega, rfl, reported_decodeWord.1 (.inr ⟨nnn, hdec⟩)⟩
  · rintro ⟨hpc, rfl, hill⟩
    obtain herr | ⟨nnn, hdec⟩ := reported_decodeWord.2 hill
    · exact .inl ⟨by omega, rfl, herr⟩
    · exact .inr ⟨.sys nnn, fetchInstr_ok.2 ⟨by omega, hdec⟩,
        exec_unknownOpcode.2 ⟨nnn, rfl, (zextAddr_of_decodeWord_sys hdec).symm⟩⟩

end Sys2Proof.Machine
end

section
/-! The words of the formats `XKK` and `XY` as numbers (30_encoding.md R77, R80, R85). -/

namespace Sys2Proof

section
variable {i : Instr} {m : Word} {x y : Nibble} {kk : Byte} {w : Nat}

theorem wordIs_of_encode (hwf : i.wellFormed = true) (h : encode i = BitVec.ofNat 16 w) : WordIs w i :=
  (congrArg decodeWord h).symm.trans (decodeWord_encode hwf)

/-- Over a `match` without operand bits, the fields of format `XKK` are added in at their places. -/
theorem encodeXKK_eq_ofNat (hm : fieldNNN m = 0#12) :
    encodeXKK m x kk = BitVec.ofNat 16 (m.toNat + 256 * x.toNat + kk.toNat) := by
  have hlow : m.toNat % 4096 = 0 := by
    simpa [fieldNNN, BitVec.extractLsb'_toNat] using congrArg BitVec.toNat hm
  have hx := x.isLt
  have hk := kk.isLt
  set op := BitVec.ofNat 16 (m.toNat + 256 * x.toNat + kk.toNat) with hop
  have hF : fieldF op = fieldF m :=
    BitVec.eq_of_toNat_eq (by rw [hop, fieldF_ofNat, fieldF_toNat]; omega)
  have hX : fieldX op = x := BitVec.eq_of_toNat_eq (by rw [hop, fieldX_ofNat]; omega)
  have hK : fieldKK op = kk := BitVec.eq_of_toNat_eq (by rw [hop, fieldKK_ofNat]; omega)
  simpa only [hX, hK] using encodeXKK_fields hF hm

/-- Over a `match` whose bits 4 to 11 are clear, the fields of format `XY` are added in at their places. -/
theorem encodeXY_eq_ofNat (hm : m.extractLsb' 4 8 = 0#8) :
    encodeXY m x y = BitVec.ofNat 16 (m.toNat + 256 * x.toNat + 16 * y.toNat) := by
  have hmid : m.toNat / 16 % 256 = 0 := by
    simpa [BitVec.extractLsb'_toNat, Nat.shiftRight_eq_div_pow] using congrArg BitVec.toNat hm
  have hm16 := m.isLt
  have hx := x.isLt
  have hy := y.isLt
  set op := BitVec.ofNat 16 (m.toNat + 256 * x.toNat + 16 * y.toNat) with hop
  have hF : fieldF op = fieldF m :=
    BitVec.eq_of_toNat_eq (by rw [hop, fieldF_ofNat, fieldF_toNat]; omega)
  have hN : fieldN op = fieldN m :=
    BitVec.eq_of_toNat_eq (by rw [hop, fieldN_ofNat, fieldN_toNat]; omega)
  have hX : fieldX op = x := BitVec.eq_of_toNat_eq (by rw [hop, fieldX_ofNat]; omega)
  have hY : fieldY op = y := BitVec.eq_of_toNat_eq (by rw [hop, fieldY_ofNat]; omega)
  simpa only [hX, hY] using encodeXY_fields hF hN hm

/-- An instruction of format `XKK` has the word of its row with its operands added in. -/
theorem wordIs_of_encodeXKK (hwf : i.wellFormed = true) (hi : encode i = encodeXKK m x kk)
    (hm : fieldNNN m = 0#12) : WordIs (m.toNat + 256 * x.toNat + kk.toNat) i :=
  wordIs_of_encode hwf (hi.trans (encodeXKK_eq_ofNat hm))

/-- An instruction of format `XY` has the word of its row with its operands added in. -/
theorem wordIs_of_encodeXY (hwf : i.wellFormed = true) (hi : encode i = encodeXY m x y)
    (hm : m.extractLsb' 4 8 = 0#8) : WordIs (m.toNat + 256 * x.toNat + 16 * y.toNat) i :=
  wordIs_of_encode hwf (hi.trans (encodeXY_eq_ofNat hm))

end

end Sys2Proof
end

section
/-! Immediate and register arithmetic (40_immediate_alu.md R100 to R111). -/

namespace Sys2Proof.Machine

/-! ### No flag: LD Vx, kk, ADD Vx, kk and LD Vx, Vy -/

/-- Settles O19: a register write with the advance. -/
theorem loadImmediateWritesVx : Obligations.LoadImmediateWritesVx := fun x kk s =>
  ⟨wordIs_of_encodeXKK (m := 0x6000#16) rfl rfl rfl, _, rfl, State.setV_getV_self s x kk, rfl,
    setV_advance_regs s x kk, setV_advance_frame s x kk⟩

/-- Settles O20: a register write with the advance, of the sum of two bytes. -/
theorem addImmediateWrapsWithoutFlag : Obligations.AddImmediateWrapsWithoutFlag := by
  intro x kk s
  refine ⟨wordIs_of_encodeXKK (m := 0x7000#16) rfl rfl rfl, _, rfl, ?_, rfl, setV_advance_regs s x _,
    setV_advance_frame s x _⟩
  rw [State.advance_getV, State.setV_getV_self, BitVec.toNat_add]

/-- Settles O21: a register write with the advance, of a register as it was. -/
theorem registerCopyKeepsFlag : Obligations.RegisterCopyKeepsFlag := fun x _ s =>
  ⟨wordIs_of_encodeXY (m := 0x8000#16) rfl rfl rfl, _, rfl, State.setV_getV_self s x _, rfl,
    setV_advance_regs s x _, setV_advance_frame s x _⟩

/-! ### OR, AND and XOR -/

/-- The shape of 8XY1 to 8XY3 leaves what each of them must (R103 to R105). -/
theorem logicResult_of_exec {i : Instr} {x : Nibble} {r : Byte} {s : State}
    (h : exec i s = .next (writeLogic s x r)) : LogicResult i x r s := by
  refine ⟨_, h, writeLogic_pc s x r, writeLogic_frame s x r, fun hq => ⟨?_, fun hx => ?_, fun y hy => ?_⟩,
    fun hq => ⟨?_, fun y hy => ?_⟩⟩
  · rw [writeLogic_getV, if_pos ⟨hq, rfl⟩]
  · rw [writeLogic_getV, if_neg fun hf => hx hf.2, if_pos rfl]
  · exact writeLogic_getV_of_ne r fun hw => hy (by simpa [hq] using hw)
  · simp [writeLogic_getV, hq]
  · exact writeLogic_getV_of_ne r fun hw => hy (by simpa [hq] using hw)

/-- Settles O22: the three operations have one shape and differ in the result alone. -/
theorem logicOperationsResetVfUnderQuirk : Obligations.LogicOperationsResetVfUnderQuirk := by
  intro x y s w
  have hw (k : Nat) : w + k = 0x8000 + k + 256 * x.toNat + 16 * y.toNat := by omega
  refine ⟨⟨?_, logicResult_of_exec rfl⟩, ⟨?_, logicResult_of_exec rfl⟩, ?_, logicResult_of_exec rfl⟩
  · exact hw 1 ▸ wordIs_of_encodeXY (m := 0x8001#16) rfl rfl rfl
  · exact hw 2 ▸ wordIs_of_encodeXY (m := 0x8002#16) rfl rfl rfl
  · exact hw 3 ▸ wordIs_of_encodeXY (m := 0x8003#16) rfl rfl rfl

/-! ### A result with a flag: ADD, SUB, SUBN, SHR and SHL -/

/-- The shape of 8XY4 to 8XY7 and 8XYE leaves the flag in VF and, unless VF is the destination, the result
in `V[X]` (R100, decision D12). -/
theorem flagResult_of_exec {i : Instr} {x : Nibble} {b : Byte} {c : Bool} {s : State} {r : Nat} {flag : Prop}
    (h : exec i s = .next (writeResultFlag s x b c)) (hr : b.toNat = r) (hc : c = true ↔ flag) :
    FlagResult i x r flag s := by
  have hVF : (writeResultFlag s x b c).getV 15#4 = if c then 1#8 else 0#8 := by
    rw [writeResultFlag_getV, if_pos rfl]
  refine ⟨_, h, rfl, writeResultFlag_frame s x b c, fun hx => ?_, fun hf => ?_, fun hf => ?_, fun y hy => ?_⟩
  · rw [writeResultFlag_getV, if_neg hx, if_pos rfl, hr]
  · rw [hVF, if_pos (hc.2 hf)]
  · rw [hVF, if_neg (mt hc.1 hf)]
  · exact writeResultFlag_getV_of_ne b c fun hw => hy (by simpa using hw)

/-- Settles O23: the flag is the carry out of the sum of bytes. -/
theorem addRegistersSetsCarry : Obligations.AddRegistersSetsCarry := fun _ _ _ =>
  ⟨wordIs_of_encodeXY (m := 0x8004#16) rfl rfl rfl,
    flagResult_of_exec rfl (BitVec.toNat_add _ _) (carryOut_iff _ _)⟩

theorem toNat_sub_byte (a b : Byte) : (a - b).toNat = (a.toNat + 256 - b.toNat) % 256 := by
  rw [BitVec.toNat_sub]
  omega

/-- Settles O24: SUBN is SUB with its operands exchanged. -/
theorem subtractionsSetNoBorrow : Obligations.SubtractionsSetNoBorrow := fun _ _ _ =>
  ⟨wordIs_of_encodeXY (m := 0x8005#16) rfl rfl rfl, wordIs_of_encodeXY (m := 0x8007#16) rfl rfl rfl,
    flagResult_of_exec rfl (toNat_sub_byte _ _) (noBorrow_iff _ _),
    flagResult_of_exec rfl (toNat_sub_byte _ _) (noBorrow_iff _ _)⟩

theorem shiftSource_toNat (s : State) (x y : Nibble) : (shiftSource s x y).toNat =
    if s.q.shiftUsesVy = true then (s.getV y).toNat else (s.getV x).toNat :=
  apply_ite BitVec.toNat _ _ _

theorem shrOut_iff (b : Byte) : shrOut b = true ↔ b.toNat % 2 = 1 := by
  simp [shrOut, BitVec.getLsbD, Nat.testBit_zero]

theorem shlOut_iff (b : Byte) : shlOut b = true ↔ 128 ≤ b.toNat := by
  have hmsb : shlOut b = b.msb := rfl
  rw [hmsb, BitVec.msb_eq_true_iff_two_mul_ge]
  omega

/-- Settles O25: the flag is the low or the high bit of the source. -/
theorem shiftsMoveTheBitOutToVf : Obligations.ShiftsMoveTheBitOutToVf := by
  intro x y s src
  have hsrc : (shiftSource s x y).toNat = src := shiftSource_toNat s x y
  refine ⟨wordIs_of_encodeXY (m := 0x8006#16) rfl rfl rfl, wordIs_of_encodeXY (m := 0x800E#16) rfl rfl rfl,
    flagResult_of_exec rfl ?_ (hsrc ▸ shrOut_iff _), flagResult_of_exec rfl ?_ (hsrc ▸ shlOut_iff _)⟩
  · rw [BitVec.toNat_ushiftRight, hsrc, Nat.shiftRight_eq_div_pow, pow_one]
  · rw [BitVec.toNat_shiftLeft, hsrc, Nat.shiftLeft_eq, pow_one]

end Sys2Proof.Machine
end

section
/-! The skips on a condition between bytes (41_skips.md R120 to R124). -/

namespace Sys2Proof.Machine

/-- The shape of every skip leaves what a skip must (R120). -/
theorem skipResult_of_exec {i : Instr} {b : Bool} {c : Prop} {s : State}
    (h : exec i s = .next (s.skipIf b)) (hb : b = true ↔ c) : SkipResult i c s := by
  refine ⟨_, h, fun hc => ?_, fun hc => ?_, skipIf_frame s b⟩
  · rw [State.skipIf_pc, if_pos (hb.2 hc)]
  · rw [State.skipIf_pc, if_neg (mt hb.1 hc)]

/-- Settles O26: the four skips have one shape and differ in the condition alone. -/
theorem conditionalSkips : Obligations.ConditionalSkips := by
  intro x y kk s
  refine ⟨⟨?_, ?_, ?_, ?_⟩, ?_, ?_, ?_, ?_⟩
  · exact wordIs_of_encodeXKK (m := 0x3000#16) rfl rfl rfl
  · exact wordIs_of_encodeXKK (m := 0x4000#16) rfl rfl rfl
  · exact wordIs_of_encodeXY (m := 0x5000#16) rfl rfl rfl
  · exact wordIs_of_encodeXY (m := 0x9000#16) rfl rfl rfl
  · exact skipResult_of_exec rfl beq_iff_eq
  · exact skipResult_of_exec rfl bne_iff_ne
  · exact skipResult_of_exec rfl beq_iff_eq
  · exact skipResult_of_exec rfl bne_iff_ne

end Sys2Proof.Machine
end

section
/-! The words of the format `NNN` as numbers (30_encoding.md R77, R80, R85). -/

namespace Sys2Proof

section
variable {i : Instr} {m : Word} {nnn : Addr12}

/-- Over a `match` without address bits, the field of format `NNN` is added in. -/
theorem encodeNNN_eq_ofNat (hm : fieldNNN m = 0#12) :
    encodeNNN m nnn = BitVec.ofNat 16 (m.toNat + nnn.toNat) := by
  have hlow : m.toNat % 4096 = 0 := by
    simpa [fieldNNN, BitVec.extractLsb'_toNat] using congrArg BitVec.toNat hm
  have hnnn := nnn.isLt
  set op := BitVec.ofNat 16 (m.toNat + nnn.toNat) with hop
  have hF : fieldF op = fieldF m :=
    BitVec.eq_of_toNat_eq (by rw [hop, fieldF_ofNat, fieldF_toNat]; omega)
  have hN : fieldNNN op = nnn := BitVec.eq_of_toNat_eq (by rw [hop, fieldNNN_ofNat]; omega)
  simpa only [hN] using encodeNNN_fields hF hm

/-- An instruction of format `NNN` has the word of its row with its address added in. -/
theorem wordIs_of_encodeNNN (hwf : i.wellFormed = true) (hi : encode i = encodeNNN m nnn)
    (hm : fieldNNN m = 0#12) : WordIs (m.toNat + nnn.toNat) i :=
  wordIs_of_encode hwf (hi.trans (encodeNNN_eq_ofNat hm))

end

end Sys2Proof
end

section
/-! Jump, call, return and SYS (42_flow.md R130 to R135). -/

namespace Sys2Proof.Machine

/-! ### Jumps: a checked transfer of a target -/

section
variable {a : Nat} {s : State}

/-- An even target up to 0xFFE is taken, and nothing but PC changes (R130). -/
theorem setPC_even (hb : a ≤ 0xFFE) (he : a % 2 = 0) :
    ∃ t, setPC a s = .next t ∧ t.pc.toNat = a ∧ OnlyChanges [] s t := by
  refine ⟨_, setPC_ok (by omega) he, ?_, setPc_frame s _⟩
  rw [State.setPc_pc, BitVec.toNat_ofNat]
  omega

theorem setPC_outOfBounds (hb : 0xFFF ≤ a) : setPC a s = .fault (.memoryOutOfBounds a) :=
  setPC_fault.2 (.inl ⟨by omega, rfl⟩)

theorem setPC_odd (hb : a < 0xFFF) (ho : a % 2 = 1) : setPC a s = .fault (.misalignedPC a) :=
  setPC_fault.2 (.inr ⟨by omega, ho, rfl⟩)

end

theorem exec_jp (nnn : Addr12) (s : State) : exec (.jp nnn) s = setPC nnn.toNat s :=
  congrArg (setPC · s) (zextAddr_toNat nnn)

/-- An even address field is at most 0xFFE. -/
theorem addr12_le_of_even {nnn : Addr12} (he : nnn.toNat % 2 = 0) : nnn.toNat ≤ 0xFFE := by
  have := nnn.isLt
  omega

/-- Settles O28: JP is the checked transfer of its address field. -/
theorem jumpChecksItsTarget : Obligations.JumpChecksItsTarget := by
  intro nnn s
  rw [exec_jp]
  refine ⟨wordIs_of_encodeNNN (m := 0x1000#16) rfl rfl rfl, fun he => ?_, fun hb => ?_, fun ho hb => ?_⟩
  · exact setPC_even (addr12_le_of_even he) he
  · rw [setPC_outOfBounds hb.ge, hb]
  · exact setPC_odd hb ho

theorem topNibble_toNat (nnn : Addr12) : (topNibble nnn).toNat = nnn.toNat / 256 := by
  have := nnn.isLt
  rw [topNibble, BitVec.extractLsb'_toNat, Nat.shiftRight_eq_div_pow]
  omega

/-- The added register is V0, or the one that the top nibble names under `Q_JUMP_VX` (R8, R132). -/
theorem jumpReg_eq {nnn : Addr12} {r : Nibble} {s : State} (hoff : s.qJumpVx = false → r = 0#4)
    (hon : s.qJumpVx = true → r.toNat = nnn.toNat / 256) : jumpReg s nnn = r := by
  unfold jumpReg
  cases hq : s.qJumpVx with
  | false => exact (hoff hq).symm
  | true => exact BitVec.eq_of_toNat_eq ((topNibble_toNat nnn).trans (hon hq).symm)

/-- Settles O29: JP V0 is the checked transfer of the sum. -/
theorem jumpWithOffsetAddsOneRegister : Obligations.JumpWithOffsetAddsOneRegister := by
  intro nnn r s hoff hon target
  have hexec : exec (.jpV0 nnn) s = setPC target s :=
    congrArg (fun r => setPC (nnn.toNat + (s.getV r).toNat) s) (jumpReg_eq hoff hon)
  rw [hexec]
  exact ⟨wordIs_of_encodeNNN (m := 0xB000#16) rfl rfl rfl, setPC_even, setPC_outOfBounds, setPC_odd⟩

/-! ### CALL -/

/-- A push writes the slot at `SP` alone and counts up (R26). -/
theorem State.push_stack {s u : State} {v : Word} (h : s.push v = some u) :
    u.sp.val = s.sp.val + 1 ∧ (∀ j : Fin 16, j.val = s.sp.val → u.stack[j] = v) ∧
      ∀ j : Fin 16, j.val ≠ s.sp.val → u.stack[j] = s.stack[j] := by
  obtain ⟨hsp, rfl⟩ := State.push_some.1 h
  refine ⟨rfl, fun j hj => ?_, fun j hj => ?_⟩
  · simp [hj]
  · simp [hj.symm]

theorem exec_call_full {nnn : Addr12} {s : State} (hsp : s.sp.val = 16) :
    exec (.call nnn) s = .fault .stackOverflow :=
  execCall_fault.2 (.inl ⟨State.push_none.2 hsp, rfl⟩)

/-- With room on the stack, CALL stops where the transfer of its target does (R133). -/
theorem exec_call_fault {nnn : Addr12} {s : State} {f : Fault} (hsp : s.sp.val < 16)
    (h : ∀ u, setPC nnn.toNat u = .fault f) : exec (.call nnn) s = .fault f :=
  execCall_fault.2 (.inr ⟨_, State.push_of_lt _ hsp, h _⟩)

/-- A call that completes leaves `PC + 2` in the slot at `SP`, keeps the other slots and counts up (R133). -/
theorem exec_call_stack {nnn : Addr12} {s t : State} (h : exec (.call nnn) s = .next t) :
    t.sp.val = s.sp.val + 1 ∧ (∀ j : Fin 16, j.val = s.sp.val → t.stack[j] = s.pc + 2#16) ∧
      ∀ j : Fin 16, j.val ≠ s.sp.val → t.stack[j] = s.stack[j] := by
  obtain ⟨u, hpush, -, -, rfl⟩ := execCall_next.1 h
  have hstack := State.push_stack hpush
  exact hstack

/-- With room on the stack, a call of an even target completes at it (R133). -/
theorem exec_call_even {nnn : Addr12} {s : State} (hsp : s.sp.val < 16) (he : nnn.toNat % 2 = 0) :
    ∃ t, exec (.call nnn) s = .next t ∧ t.pc.toNat = nnn.toNat := by
  have hb := addr12_le_of_even he
  refine ⟨_, execCall_next.2 ⟨_, State.push_of_lt _ hsp, by omega, he, rfl⟩, ?_⟩
  rw [State.setPc_pc, BitVec.toNat_ofNat]
  omega

theorem exec_frame {i : Instr} {s t : State} (h : exec i s = .next t) :
    OnlyChanges (writtenParts i) s t := fun p hp => Part.same_of_kept (exec_keeps h p hp)

/-- Settles O30: the push before the checked transfer. -/
theorem callPushesTheReturnAddress : Obligations.CallPushesTheReturnAddress := by
  intro nnn s
  refine ⟨wordIs_of_encodeNNN (m := 0x2000#16) rfl rfl rfl, exec_call_full, fun hsp hb => ?_,
    fun hsp hb ho => ?_, fun hsp he => ?_⟩
  · exact exec_call_fault hsp fun u => by rw [setPC_outOfBounds hb.ge, hb]
  · exact exec_call_fault hsp fun u => setPC_odd hb ho
  · obtain ⟨t, hexec, hpc⟩ := exec_call_even hsp he
    obtain ⟨htsp, hslot, hothers⟩ := exec_call_stack hexec
    exact ⟨t, hexec, hpc, htsp, hslot, hothers, exec_frame hexec⟩

/-! ### RET -/

/-- The newest return address is in the slot below `SP` (R26). -/
theorem State.pop_of_slot {s : State} {j : Fin 16} (hj : j.val + 1 = s.sp.val) :
    ∃ h, s.pop = some (s.stack[j], s.setStack ⟨s.sp.val - 1, h⟩ s.stack) := by
  have hsp : s.sp.val - 1 = j.val := by omega
  refine ⟨by omega, State.pop_some.2 ⟨by omega, ?_, rfl⟩⟩
  simp [hsp]

/-- RET completes at an address below 0xFFF, takes it off the stack and keeps every slot (R134). -/
theorem exec_ret_slot {s : State} {j : Fin 16} (hj : j.val + 1 = s.sp.val) (hb : s.stack[j].toNat < 0xFFF) :
    ∃ t, exec .ret s = .next t ∧ t.pc = s.stack[j] ∧ t.sp.val = s.sp.val - 1 ∧ t.stack = s.stack := by
  obtain ⟨h, hpop⟩ := State.pop_of_slot hj
  exact ⟨_, execRet_next.2 ⟨_, _, hpop, by omega, rfl⟩, rfl, rfl, rfl⟩

/-- Settles O31: the pop before the check of its address. -/
theorem returnPopsTheNewestAddress : Obligations.ReturnPopsTheNewestAddress := by
  refine fun s => ⟨rfl, fun hsp => ?_, fun j hj => ⟨fun hb => ?_, fun hb => ?_⟩⟩
  · exact execRet_fault.2 (.inl ⟨State.pop_none.2 hsp, rfl⟩)
  · obtain ⟨h, hpop⟩ := State.pop_of_slot hj
    exact execRet_fault.2 (.inr ⟨_, _, hpop, by omega, rfl⟩)
  · obtain ⟨t, hexec, hpc, hsp, hstack⟩ := exec_ret_slot hj hb
    exact ⟨t, hexec, hpc, hsp, fun k => by rw [hstack], exec_frame hexec⟩

/-! ### Calls and returns together -/

/-- Settles O32: the return address is in the caller's slot at `SP`, which the callee has kept. -/
theorem returnUndoesCall : Obligations.ReturnUndoesCall := by
  intro nnn s t u hpc hcall husp hlive
  obtain ⟨htsp, hslot, -⟩ := exec_call_stack hcall
  have hroom : s.sp.val < 16 := by omega
  have haddr : u.stack[(⟨s.sp.val, hroom⟩ : Fin 16)] = s.pc + 2#16 :=
    (hlive _ (by rw [htsp]; exact Nat.lt_succ_self _)).trans (hslot _ rfl)
  have hpc2 : (s.pc + 2#16).toNat = s.pc.toNat + 2 := by bv_omega
  obtain ⟨w, hret, hwpc, hwsp, -⟩ := exec_ret_slot (s := u) (j := ⟨s.sp.val, hroom⟩)
    (by rw [husp, htsp]) (by rw [haddr]; omega)
  refine ⟨w, hret, by rw [hwpc, haddr, hpc2], Fin.ext ?_⟩
  rw [hwsp, husp, htsp, Nat.add_sub_cancel]

section
variable {i : Instr} {s : State} (n : Nat)

theorem execTimes_succ_of_next {t : State} (h : exec i s = .next t) :
    execTimes i (n + 1) s = execTimes i n t := by
  rw [execTimes, h]

theorem execTimes_succ_of_fault {f : Fault} (h : exec i s = .fault f) :
    execTimes i (n + 1) s = .fault f := by
  rw [execTimes, h]

end

/-- Settles O33, by induction on the number of calls: with room the first call counts `SP` up, and with
none it overflows. -/
theorem callsNestToSixteen : Obligations.CallsNestToSixteen := by
  intro nnn s n he
  induction n generalizing s with
  | zero => exact ⟨fun _ => ⟨s, rfl, rfl⟩, fun h => by omega⟩
  | succ n ih =>
    by_cases hroom : s.sp.val < 16
    · obtain ⟨t, hcall, -⟩ := exec_call_even hroom he
      obtain ⟨htsp, -, -⟩ := exec_call_stack hcall
      rw [execTimes_succ_of_next n hcall, ← Nat.add_assoc, Nat.add_right_comm, ← htsp]
      exact ih t
    · have hfull : s.sp.val = 16 := by omega
      exact ⟨fun h => by omega, fun _ => execTimes_succ_of_fault n (exec_call_full hfull)⟩

/-! ### SYS -/

theorem sys_wellFormed {nnn : Addr12} (hE0 : nnn.toNat ≠ 0x0E0) (hEE : nnn.toNat ≠ 0x0EE) :
    (Instr.sys nnn).wellFormed = true := by
  simp only [Instr.wellFormed, Bool.and_eq_true, bne_iff_ne]
  exact ⟨ne_of_apply_ne BitVec.toNat hE0, ne_of_apply_ne BitVec.toNat hEE⟩

/-- Settles O34: SYS reports its address field widened, which is its word. -/
theorem sysReportsUnknownOpcode : Obligations.SysReportsUnknownOpcode := by
  intro nnn s
  refine ⟨fun hE0 hEE => ?_, exec_unknownOpcode.2 ⟨nnn, rfl, BitVec.ofNat_toNat 16 nnn⟩⟩
  exact Nat.zero_add nnn.toNat ▸ wordIs_of_encodeNNN (m := 0x0000#16) (sys_wellFormed hE0 hEE) rfl rfl

end Sys2Proof.Machine
end

section
/-! The words of the format `X` as numbers (30_encoding.md R77, R80, R85). -/

namespace Sys2Proof

section
variable {i : Instr} {m : Word} {x : Nibble}

/-- Over a `match` whose bits 8 to 11 are clear, the field of format `X` is added in at its place. -/
theorem encodeX_eq_ofNat (hm : fieldX m = 0#4) :
    encodeX m x = BitVec.ofNat 16 (m.toNat + 256 * x.toNat) := by
  have hmid : m.toNat / 256 % 16 = 0 := by
    rw [← fieldX_ofNat, BitVec.ofNat_toNat, BitVec.setWidth_eq, hm]; rfl
  have hm16 := m.isLt
  have hx := x.isLt
  set op := BitVec.ofNat 16 (m.toNat + 256 * x.toNat) with hop
  have hF : fieldF op = fieldF m :=
    BitVec.eq_of_toNat_eq (by rw [hop, fieldF_ofNat, fieldF_toNat]; omega)
  have hK : fieldKK op = fieldKK m :=
    BitVec.eq_of_toNat_eq (by rw [hop, fieldKK_ofNat, fieldKK_toNat]; omega)
  have hX : fieldX op = x := BitVec.eq_of_toNat_eq (by rw [hop, fieldX_ofNat]; omega)
  simpa only [hX] using encodeX_fields hF hK hm

/-- An instruction of format `X` has the word of its row with its register number added in. -/
theorem wordIs_of_encodeX (hwf : i.wellFormed = true) (hi : encode i = encodeX m x)
    (hm : fieldX m = 0#4) : WordIs (m.toNat + 256 * x.toNat) i :=
  wordIs_of_encode hwf (hi.trans (encodeX_eq_ofNat hm))

end

end Sys2Proof
end

section
/-! The index register: LD I, nnn and ADD I, Vx (43_index.md R140, R141). -/

namespace Sys2Proof.Machine

/-- Settles O36: a write of `I` with the advance, of the address field widened. -/
theorem loadIndexZeroExtends : Obligations.LoadIndexZeroExtends := fun nnn s =>
  ⟨wordIs_of_encodeNNN (m := 0xA000#16) rfl rfl rfl, _, rfl, zextAddr_toNat nnn, rfl,
    setI_advance_frame s _⟩

/-- Settles O37: a write of `I` with the advance, of the sum of `I` and a byte widened (decision D3). -/
theorem addIndexWrapsAtSixteenBits : Obligations.AddIndexWrapsAtSixteenBits := by
  intro x s
  refine ⟨wordIs_of_encodeX (m := 0xF01E#16) rfl rfl rfl, _, rfl, ?_, rfl, setI_advance_frame s _⟩
  rw [State.advance_i, State.setI_i, BitVec.toNat_add, zextByte_toNat]

end Sys2Proof.Machine
end

section
/-! The words of the format `XYN` as numbers (30_encoding.md R77, R80, R85). -/

namespace Sys2Proof

section
variable {i : Instr} {m : Word} {x y n : Nibble}

/-- Over a `match` without operand bits, the fields of format `XYN` are added in at their places. -/
theorem encodeXYN_eq_ofNat (hm : fieldNNN m = 0#12) :
    encodeXYN m x y n = BitVec.ofNat 16 (m.toNat + 256 * x.toNat + 16 * y.toNat + n.toNat) := by
  have hlow : m.toNat % 4096 = 0 := by
    rw [← fieldNNN_ofNat, BitVec.ofNat_toNat, BitVec.setWidth_eq, hm]; rfl
  have hx := x.isLt
  have hy := y.isLt
  have hn := n.isLt
  set op := BitVec.ofNat 16 (m.toNat + 256 * x.toNat + 16 * y.toNat + n.toNat) with hop
  have hF : fieldF op = fieldF m :=
    BitVec.eq_of_toNat_eq (by rw [hop, fieldF_ofNat, fieldF_toNat]; omega)
  have hX : fieldX op = x := BitVec.eq_of_toNat_eq (by rw [hop, fieldX_ofNat]; omega)
  have hY : fieldY op = y := BitVec.eq_of_toNat_eq (by rw [hop, fieldY_ofNat]; omega)
  have hN : fieldN op = n := BitVec.eq_of_toNat_eq (by rw [hop, fieldN_ofNat]; omega)
  simpa only [hX, hY, hN] using encodeXYN_fields hF hm

/-- An instruction of format `XYN` has the word of its row with its operands added in. -/
theorem wordIs_of_encodeXYN (hwf : i.wellFormed = true) (hi : encode i = encodeXYN m x y n)
    (hm : fieldNNN m = 0#12) : WordIs (m.toNat + 256 * x.toNat + 16 * y.toNat + n.toNat) i :=
  wordIs_of_encode hwf (hi.trans (encodeXYN_eq_ofNat hm))

end

end Sys2Proof
end

section
/-! Random and display: RND Vx, kk, DRW Vx, Vy, n and CLS (44_random_display.md R150 to R152). -/

namespace Sys2Proof.Machine

/-! ### DRW: where the sprite falls, and when it collides -/

/-- The cells that the statement's `SpriteLights` names are those hit by the block read at `I`. -/
theorem spriteLights_iff_spriteHits {s : State} {x y n : Nibble} {px py : Nat} :
    SpriteLights s x y n px py ↔
      SpriteHits (s.getV x).toNat (s.getV y).toNat (s.mem.readBytes (dataBase s) n.toNat) px py := by
  constructor
  · rintro ⟨row, col, hrow, hcol, hbit, hx, hy⟩
    refine ⟨row, by simpa using hrow, hy, col, hcol, hx, ?_⟩
    rwa [Memory.getElem_readBytes]
  · rintro ⟨row, hrow, hy, col, hcol, hx, hbit⟩
    rw [Memory.getElem_readBytes] at hbit
    exact ⟨row, col, by simpa using hrow, hcol, hbit, hx, hy⟩

/-- Drawn with no collision noted yet, a sprite of at most 32 rows collides exactly when a cell it hits was
lit. -/
theorem drawSprite_collision {x0 y0 : Nat} {bs : List Byte} {d : Display} (hlen : bs.length ≤ 32) :
    (drawSprite x0 y0 bs (d, false)).2 = true ↔
      ∃ px py, SpriteHits x0 y0 bs px py ∧ d.pixel px py = true := by
  obtain ⟨-, -, hflag⟩ := drawSprite_spec x0 y0 bs hlen (d, false) 0 0
  rw [hflag]
  constructor
  · rintro (hnoted | ⟨row, hrow, col, hcol, hbit, hlit⟩)
    · cases hnoted
    · exact ⟨x0 + col, y0 + row, ⟨row, hrow, rfl, col, hcol, rfl, hbit⟩, hlit⟩
  · rintro ⟨px, py, ⟨row, hrow, hy, col, hcol, hx, hbit⟩, hlit⟩
    exact .inr ⟨row, hrow, col, hcol, hbit, d.pixel_congr hx hy ▸ hlit⟩

/-- A frame may name more pieces of state than it must, in any order. -/
theorem OnlyChanges.mono {ps qs : List Part} {s t : State} (h : OnlyChanges ps s t) (hsub : ps ⊆ qs) :
    OnlyChanges qs s t := fun p hp => h p fun hps => hp (hsub hps)

/-- Settles O40: the laws of a sprite of at most 15 rows, read as one block at `I`. -/
theorem drawXorsTheSprite : Obligations.DrawXorsTheSprite := by
  intro x y n s
  refine ⟨wordIs_of_encodeXYN (m := 0xD000#16) rfl rfl rfl, fun hn hb => ?_, fun hb => ?_⟩
  · exact execDrw_fault.2 (memReadBlock_error ⟨hn, by rw [dataBase]; omega⟩)
  · simp only [spriteLights_iff_spriteHits]
    set bs := s.mem.readBytes (dataBase s) n.toNat
    set d := drawSprite (s.getV x).toNat (s.getV y).toNat bs (s.disp, false)
    have hexec : exec (.drw x y n) s = .next ((s.setDisp d.1).setVF d.2).advance :=
      execDrw_next.2 ⟨bs, d, memReadBlock_ok (by rw [dataBase]; omega), rfl, rfl⟩
    have hlen : bs.length ≤ 32 :=
      (Memory.length_readBytes _ _ _).trans_le (n.lt_sixteen.le.trans (by decide))
    have hcells := drawSprite_spec (s.getV x).toNat (s.getV y).toNat bs hlen (s.disp, false)
    have hVF := State.setV_getV_self (s.setDisp d.1) 15#4 (if d.2 then 1#8 else 0#8)
    exact ⟨_, hexec, fun px py => (hcells px py).1, fun px py => (hcells px py).2.1,
      fun hc => hVF.trans (if_pos ((drawSprite_collision hlen).2 hc)),
      fun hc => hVF.trans (if_neg (mt (drawSprite_collision hlen).1 hc)), rfl,
      setV_advance_regs (s.setDisp d.1) _ _, (exec_frame hexec).mono (by simp [writtenParts])⟩

/-! ### RND and CLS -/

/-- Settles O39: one draw is counted, and the drawn byte ANDed with the mask is a register write with the
advance. -/
theorem randomIsMaskedDraw : Obligations.RandomIsMaskedDraw := by
  intro x kk s
  have hexec : exec (.rnd x kk) s = .next (s.countDraw.setV x (s.nextDraw &&& kk)).advance := rfl
  have hx := State.setV_getV_self s.countDraw x (s.nextDraw &&& kk)
  refine ⟨wordIs_of_encodeXKK (m := 0xC000#16) rfl rfl rfl, _, hexec, hx, ?_, rfl, rfl,
    setV_advance_regs s.countDraw x _, (exec_frame hexec).mono (by simp [writtenParts])⟩
  rw [State.advance_getV, hx, BitVec.and_assoc, BitVec.and_not_self]
  exact BitVec.and_zero

/-- Settles O41: a write of the whole display with the advance. -/
theorem clearScreenBlanksTheDisplay : Obligations.ClearScreenBlanksTheDisplay := fun _ =>
  ⟨rfl, _, rfl, Display.pixel_blank, rfl, exec_frame (i := .cls) rfl⟩

end Sys2Proof.Machine
end

section
/-! Keypad and timers (45_keys_timers.md R160 to R165; 60_exceptions.md R194). -/

namespace Sys2Proof.Machine

/-! ### The key skips -/

/-- The key that SKP and SKNP read is the one with the number of the low nibble (decision D10). -/
theorem keyOf_eq {x k : Nibble} {s : State} (hk : k.toNat = (s.getV x).toNat % 16) :
    keyOf s x = s.getKey k :=
  congrArg s.getKey (BitVec.eq_of_toNat_eq ((lowNibble_toNat _).trans hk.symm))

/-- Settles O27: two skips, on the flag of one key and on its negation. -/
theorem keySkipsReadTheLowNibble : Obligations.KeySkipsReadTheLowNibble := by
  intro x k s hk
  refine ⟨wordIs_of_encodeX (m := 0xE09E#16) rfl rfl rfl, wordIs_of_encodeX (m := 0xE0A1#16) rfl rfl rfl,
    skipResult_of_exec rfl ?_, skipResult_of_exec rfl ?_⟩
  · rw [keyOf_eq hk]
  · rw [keyOf_eq hk, Bool.not_eq_true']

/-! ### The timers -/

/-- Settles O44: a register write with the advance, of the delay timer as it was. -/
theorem readDelayTimer : Obligations.ReadDelayTimer := fun x s =>
  ⟨wordIs_of_encodeX (m := 0xF007#16) rfl rfl rfl, _, rfl, State.setV_getV_self s x s.dt, rfl,
    setV_advance_regs s x s.dt, setV_advance_frame s x s.dt⟩

/-- Settles O45: each is a write of its own timer with the advance, and the tone line reads `ST`. -/
theorem setTimersIndependently : Obligations.SetTimersIndependently := fun _ _ =>
  ⟨wordIs_of_encodeX (m := 0xF015#16) rfl rfl rfl, wordIs_of_encodeX (m := 0xF018#16) rfl rfl rfl,
    ⟨_, rfl, rfl, rfl, exec_frame (i := .ldDt _) rfl⟩,
    ⟨_, rfl, rfl, decide_eq_true_iff, rfl, exec_frame (i := .ldSt _) rfl⟩⟩

/-! ### LD Vx, K -/

/-- With a key captured, LD Vx, K completes: the key's number, widened, is a register write with the advance,
and the capture is consumed (R165). -/
theorem exec_ldKey_captured {x k : Nibble} {s : State} (hc : s.capt = some k) :
    ∃ t, exec (.ldKey x) s = .next t ∧ (t.getV x).toNat = k.toNat ∧ t.capt = none ∧ t.await = s.await ∧
      t.pc = s.pc + 2#16 ∧ SameRegsExcept [x] s t ∧ OnlyChanges [.regs, .wait] s t := by
  have hexec : exec (.ldKey x) s = .next ((s.setV x (k.setWidth 8)).setWait s.await none).advance :=
    execLdKey_next.2 (.inl ⟨k, hc, rfl⟩)
  refine ⟨_, hexec, ?_, rfl, rfl, rfl, setV_advance_regs s x _, exec_frame hexec⟩
  rw [State.advance_getV, State.setWait_getV, State.setV_getV_self, BitVec.toNat_setWidth_of_le (by decide)]

/-- Settles O46: the three branches, on the capture and then on the wait. -/
theorem waitForKeyThreeBranches : Obligations.WaitForKeyThreeBranches := by
  intro x s
  refine ⟨wordIs_of_encodeX (m := 0xF00A#16) rfl rfl rfl, fun k => exec_ldKey_captured, fun hc ha => ?_,
    fun hc ha => ?_⟩
  · exact execLdKey_next.2 (.inr (.inl ⟨hc, ha, rfl⟩))
  · exact ⟨_, execLdKey_next.2 (.inr (.inr ⟨hc, ha, rfl⟩)), rfl, rfl, rfl,
      fun p hp => Part.same_of_kept (s.setWait_keeps true none p hp)⟩

/-! ### Waiting -/

/-- The fetch reads PC and memory alone. -/
theorem fetchInstr_congr {s t : State} (hpc : t.pc = s.pc) (hmem : t.mem = s.mem) :
    fetchInstr t = fetchInstr s := by
  simp only [fetchInstr, fetchWord, hpc, hmem]

theorem State.setWait_eq_self {s : State} {a : Bool} {c : Option Nibble} (ha : s.await = a)
    (hc : s.capt = c) : s.setWait a c = s := by
  subst ha hc; rfl

section
variable {x k : Nibble} {s : State}

/-- With nothing captured, a step at LD Vx, K leaves the machine waiting, whether it was or not (R165). -/
theorem step_ldKey_waits (hf : fetchInstr s = .ok (.ldKey x)) (hc : s.capt = none) :
    step s = .next (s.setWait true none) := by
  rw [step_of_fetchInstr hf]
  cases ha : s.await with
  | true => exact execLdKey_next.2 (.inr (.inl ⟨hc, ha, State.setWait_eq_self ha hc⟩))
  | false => exact execLdKey_next.2 (.inr (.inr ⟨hc, ha, rfl⟩))

/-- Any number of steps from one on leave the machine waiting, as the first does. -/
theorem runSchedule_steps_ldKey (hf : fetchInstr s = .ok (.ldKey x)) (hc : s.capt = none) (n : Nat) :
    runSchedule (List.replicate (n + 1) .step) s = .next (s.setWait true none) := by
  have hstep : operate .step s = .next (s.setWait true none) := step_ldKey_waits hf hc
  induction n generalizing s with
  | zero => simp only [List.replicate, runSchedule, hstep]
  | succ n ih =>
    rw [List.replicate_succ, runSchedule, hstep]
    exact ih (s := s.setWait true none) hf rfl (step_ldKey_waits hf rfl)

/-- A key-down while waiting ends the wait and is captured (R194). -/
theorem opKeyDown_of_await (ha : s.await = true) :
    opKeyDown k s = (s.setKey k true).setWait false (some k) := if_pos ha

/-- A key-down while not waiting sets its flag alone (R194). -/
theorem opKeyDown_of_not_await (ha : s.await = false) : opKeyDown k s = s.setKey k true :=
  if_neg (by simp [ha])

end

/-! ### Key and timer events while not waiting -/

theorem State.setKey_keeps (s : State) (k : Nibble) (b : Bool) : KeepsAllBut [.keys] s (s.setKey k b) := by
  intro p hp; cases p <;> simp [Part.kept] at hp ⊢

/-- A frame by field may name more pieces of state than it must, in any order. -/
theorem KeepsAllBut.mono {ps qs : List Part} {s t : State} (h : KeepsAllBut ps s t) (hsub : ps ⊆ qs) :
    KeepsAllBut qs s t := fun p hp => h p fun hps => hp (hsub hps)

/-- While not waiting, an event of the keypad or the timers touches the timers and the key flags alone; in
particular it captures no key (R193 to R195, decision D9). -/
theorem operate_event {e : Op} {s : State} (he : IsEvent e) (ha : s.await = false) :
    ∃ t, operate e s = .next t ∧ t.pc = s.pc ∧ KeepsAllBut [.dt, .st, .keys] s t := by
  cases e with
  | tick =>
    exact ⟨_, rfl, rfl, ((s.setDt_keeps _).trans (State.setSt_keeps _ _)).mono (by simp)⟩
  | keyDown k =>
    exact ⟨_, congrArg Host.Outcome.next (opKeyDown_of_not_await ha), rfl, (s.setKey_keeps k true).mono (by simp)⟩
  | keyUp k => exact ⟨_, rfl, rfl, (s.setKey_keeps k false).mono (by simp)⟩
  | step | reset | loadRom r | setQuirks q => exact he.elim

/-- A sequence of such events, begun while not waiting, does no more than one of them. -/
theorem runSchedule_events {es : List Op} {s : State} (hes : ∀ e ∈ es, IsEvent e) (ha : s.await = false) :
    ∃ t, runSchedule es s = .next t ∧ t.pc = s.pc ∧ KeepsAllBut [.dt, .st, .keys] s t := by
  induction es generalizing s with
  | nil => exact ⟨s, rfl, rfl, .refl _ s⟩
  | cons e es ih =>
    obtain ⟨he, hes⟩ := List.forall_mem_cons.1 hes
    obtain ⟨u, hop, hpcu, hu⟩ := operate_event he ha
    have hau : u.await = false := (hu .wait (by decide)).1.trans ha
    obtain ⟨t, hrun, hpct, ht⟩ := ih hes hau
    refine ⟨t, ?_, hpct.trans hpcu, fun p hp => Part.kept_trans (hu p hp) (ht p hp)⟩
    rw [runSchedule, hop]
    exact hrun

/-- Settles O47: the steps leave the machine waiting, the key-down ends the wait and fills the capture, the
later events keep the capture and the word at PC, and the last step is the branch that consumes it. -/
theorem waitEndsWithTheFirstKeyDown : Obligations.WaitEndsWithTheFirstKeyDown := by
  intro x k s n es hf hc hes
  set w := s.setWait true none
  have hwait : runSchedule (List.replicate (n + 1) .step) s = .next w := runSchedule_steps_ldKey hf hc n
  refine ⟨⟨w, hwait, rfl, rfl, fun p hp => Part.same_of_kept (s.setWait_keeps true none p hp)⟩, ?_⟩
  set d := (w.setKey k true).setWait false (some k)
  have hdown : runSchedule [.keyDown k] w = .next d :=
    congrArg Host.Outcome.next (opKeyDown_of_await rfl)
  obtain ⟨u, hevents, hpc, hkeep⟩ := runSchedule_events (s := d) hes rfl
  obtain ⟨hawait, hcapt⟩ := hkeep .wait (by decide)
  have hregs (r : Nibble) : u.getV r = s.getV r := Part.same_of_kept (hkeep .regs (by decide)) r
  have hfetch : fetchInstr u = .ok (.ldKey x) :=
    (fetchInstr_congr (s := s) hpc (hkeep .mem (by decide))).trans hf
  obtain ⟨t, hexec, hx, hct, hat, hpct, hothers, -⟩ := exec_ldKey_captured (x := x) hcapt
  have hlast : runSchedule [.step] u = .next t := by
    simp only [runSchedule, operate, step_of_fetchInstr hfetch, hexec]
  refine ⟨t, ?_, hx, hpct.trans (congrArg (· + 2#16) hpc), hat.trans hawait, hct,
    fun r hr => (hothers r hr).trans (hregs r)⟩
  rw [List.append_assoc, List.append_assoc, runSchedule_append hwait, runSchedule_append hdown,
    runSchedule_append hevents, hlast]

end Sys2Proof.Machine
end

section
/-! Font address, BCD store and register block transfers (46_font_bcd_block.md R170 to R173). -/

namespace Sys2Proof.Machine

/-! ### LD F -/

/-- The font stands at address 0 (decision D5), so no glyph address wraps. -/
theorem glyphAddr_toNat (b : Byte) : (glyphAddr b).toNat = 5 * (b.toNat % 16) := by
  rw [glyphAddr, fontBase, BitVec.toNat_ofNat, lowNibble_toNat]
  omega

/-- Settles O38: a write of `I` with the advance, of the address of the low nibble's glyph. -/
theorem fontAddressOfTheLowNibble : Obligations.FontAddressOfTheLowNibble := fun _ s =>
  ⟨wordIs_of_encodeX (m := 0xF029#16) rfl rfl rfl, _, rfl, glyphAddr_toNat _, rfl,
    setI_advance_frame s _⟩

/-! ### LD B -/

/-- A number that fits a byte is read back from the byte it is stored as. -/
theorem toNat_of_eq_ofNat {b : Byte} {n : Nat} (h : b = BitVec.ofNat 8 n) (hn : n < 256) : b.toNat = n := by
  rw [h, BitVec.toNat_ofNat, Nat.mod_eq_of_lt hn]

/-- A store of the digits inside memory leaves hundreds, tens and ones in ascending order (R171, decision
D25). -/
theorem read_writeBytes_bcdDigits {m : Memory} {a : Nat} (b : Byte) (hm : m.wf = true) (h : a + 3 ≤ 4096) :
    ((m.writeBytes a (bcdDigits b)).read a).toNat = b.toNat / 100 ∧
    ((m.writeBytes a (bcdDigits b)).read (a + 1)).toNat = b.toNat / 10 % 10 ∧
    ((m.writeBytes a (bcdDigits b)).read (a + 2)).toNat = b.toNat % 10 := by
  have hb := b.isLt
  have hdigit {k : Nat} (hk : k < 3) : (m.writeBytes a (bcdDigits b)).read (a + k) = (bcdDigits b)[k] :=
    Memory.read_writeBytes_inside hm h hk
  exact ⟨toNat_of_eq_ofNat (hdigit (k := 0) (by decide)) (by omega),
    toNat_of_eq_ofNat (hdigit (k := 1) (by decide)) (by omega),
    toNat_of_eq_ofNat (hdigit (k := 2) (by decide)) (by omega)⟩

/-- Settles O52: one block write of the three digits, whole or not at all. -/
theorem bcdStoreWritesThreeDigits : Obligations.BcdStoreWritesThreeDigits := by
  intro x s
  refine ⟨wordIs_of_encodeX (m := 0xF033#16) rfl rfl rfl, fun hb => ?_, fun hm hb => ?_⟩
  · exact execLdBcd_fault.2 (memWriteBlock_error (by rw [dataBase, length_bcdDigits]; omega))
  · have hfits : dataBase s + 3 ≤ 4096 := by rw [dataBase]; omega
    have hexec : exec (.ldBcd x) s = .next _ := execLdBcd_next.2 ⟨_, memWriteBlock_ok (.inr hfits), rfl⟩
    obtain ⟨hhundreds, htens, hones⟩ := read_writeBytes_bcdDigits (s.getV x) hm hfits
    exact ⟨_, hexec, hhundreds, htens, hones, fun _ ha => Memory.read_writeBytes_outside hm hfits ha, rfl,
      exec_frame hexec⟩

/-! ### Block transfers -/

/-- A block that ends inside memory leaves `I` where the quirk says, without wrapping (decision D7). -/
theorem indexAfterBlock_spec {x : Nibble} {s t : State} (hb : s.i.toNat + x.toNat ≤ 4095)
    (ht : t.i = indexAfterBlock s x) : IndexAfterBlock x s t := by
  have hx := x.lt_sixteen
  refine ⟨fun hq => ?_, fun hq => by rw [ht, indexAfterBlock, hq]; rfl⟩
  rw [ht, indexAfterBlock, if_pos hq, BitVec.toNat_add, BitVec.toNat_add, BitVec.toNat_setWidth,
    BitVec.toNat_ofNat]
  omega

/-- Settles O53: one block write of V0 to VX, whole or not at all. -/
theorem blockStoreWritesV0ToVx : Obligations.BlockStoreWritesV0ToVx := by
  intro x s
  refine ⟨wordIs_of_encodeX (m := 0xF055#16) rfl rfl rfl, fun hb => ?_, fun hm hb => ?_⟩
  · exact execStoreRegs_fault.2 (memWriteBlock_error (by rw [dataBase, length_regBlock]; omega))
  · have hfits : dataBase s + (regBlock s x).length ≤ 4096 := by rw [dataBase, length_regBlock]; omega
    have hexec : exec (.storeRegs x) s = .next _ :=
      execStoreRegs_next.2 ⟨_, memWriteBlock_ok (.inr hfits), rfl⟩
    exact ⟨_, hexec, fun k hk => (execStoreRegs_read hm hexec hk).2,
      fun _ ha => Memory.read_writeBytes_outside hm hfits (by rwa [length_regBlock]),
      indexAfterBlock_spec hb rfl, rfl, exec_frame hexec⟩

/-- Settles O54: one block read into V0 to VX, whole or not at all. -/
theorem blockLoadReadsV0ToVx : Obligations.BlockLoadReadsV0ToVx := by
  intro x s
  refine ⟨wordIs_of_encodeX (m := 0xF065#16) rfl rfl rfl, fun hb => ?_, fun hb => ?_⟩
  · exact execLoadRegs_fault.2 (memReadBlock_error (by rw [dataBase]; omega))
  · have hexec : exec (.loadRegs x) s = .next _ :=
      execLoadRegs_next.2 ⟨_, memReadBlock_ok (by rw [dataBase]; omega), rfl⟩
    have hload (k : Nibble) := State.setRegs_load_getV s x k s.mem (dataBase s)
    exact ⟨_, hexec, fun k hk => (hload k).trans (if_pos hk),
      fun k hk => execLoadRegs_getV_of_lt hexec (Nat.not_le.2 hk), indexAfterBlock_spec hb rfl, rfl,
      exec_frame hexec⟩

end Sys2Proof.Machine
end

section
/-! Which instructions and which operations fault, and with which report: the table of R180, in the order
of R189 (60_exceptions.md R187, R190, R192). -/

namespace Sys2Proof.Machine

/-! ### The table for one instruction -/

section
variable {s : State} {f : Fault}

/-- The checked transfer faults by the table's row for a target. -/
theorem setPC_fault_iff {a : Nat} : setPC a s = .fault f ↔ TargetFault a f :=
  setPC_fault.trans (or_congr Iff.rfl (and_congr_left' Nat.lt_succ_iff))

/-- The one bounds check of a data access is the table's row for it. -/
theorem dataFault_eq_some_iff {a n : Nat} : dataFault a n = some f ↔ DataFault a n f := by
  rw [dataFault_eq_some, DataFault, and_assoc]
  exact and_congr_right fun hn => and_congr_left' (by omega)

theorem memReadBlock_error_iff {m : Memory} {a n : Nat} :
    memReadBlock m a n = .error f ↔ DataFault a n f := by
  rw [memReadBlock_eq_error, ← dataFault_eq_some, dataFault_eq_some_iff]

theorem memWriteBlock_error_iff {m : Memory} {a : Nat} {bs : List Byte} :
    memWriteBlock m a bs = .error f ↔ DataFault a bs.length f := by
  rw [memWriteBlock_eq_error, ← dataFault_eq_some, dataFault_eq_some_iff]

theorem State.exists_push_iff {v : Word} : (∃ u, s.push v = some u) ↔ s.sp.val < 16 :=
  ⟨fun ⟨_, h⟩ => (State.push_some.1 h).1, fun h => ⟨_, State.push_of_lt v h⟩⟩

/-- What a pop gives is what the slot below `SP` holds (R26). -/
theorem State.exists_pop_iff {a : Word} :
    (∃ u, s.pop = some (a, u)) ↔ ∃ j : Fin 16, j.val + 1 = s.sp.val ∧ s.stack[j] = a := by
  constructor
  · rintro ⟨u, hpop⟩
    obtain ⟨hsp, rfl, -⟩ := State.pop_some.1 hpop
    exact ⟨⟨s.sp.val - 1, by omega⟩, Nat.sub_add_cancel hsp, rfl⟩
  · rintro ⟨j, hj, rfl⟩
    obtain ⟨_, hpop⟩ := State.pop_of_slot hj
    exact ⟨_, hpop⟩

theorem exec_call_fault_iff {nnn : Addr12} :
    exec (.call nnn) s = .fault f ↔ FaultOf s f (.call nnn) := by
  simp only [exec, execCall_fault, setPC_fault_iff, exists_and_right, State.exists_push_iff,
    State.push_none, FaultOf]

theorem exec_ret_fault_iff : exec .ret s = .fault f ↔ FaultOf s f .ret := by
  rw [exec, execRet_fault, State.pop_none, FaultOf]
  refine or_congr Iff.rfl ⟨?_, ?_⟩
  · rintro ⟨a, u, hpop, hb, rfl⟩
    obtain ⟨j, hj, rfl⟩ := State.exists_pop_iff.1 ⟨u, hpop⟩
    exact ⟨j, hj, hb, rfl⟩
  · rintro ⟨j, hj, hb, rfl⟩
    obtain ⟨u, hpop⟩ := State.exists_pop_iff.2 ⟨j, hj, rfl⟩
    exact ⟨_, u, hpop, hb, rfl⟩

/-- An instruction faults exactly where the table has a row for it that applies. -/
theorem exec_fault_iff {i : Instr} : exec i s = .fault f ↔ FaultOf s f i := by
  cases i with
  | sys nnn => simp [exec, execSys, raise, FaultOf, zextAddr, BitVec.ofNat_toNat, eq_comm]
  | jp nnn => rw [exec_jp, setPC_fault_iff, FaultOf]
  | jpV0 nnn => exact setPC_fault_iff
  | call nnn => exact exec_call_fault_iff
  | ret => exact exec_ret_fault_iff
  | drw x y n => exact execDrw_fault.trans memReadBlock_error_iff
  | ldBcd x => exact execLdBcd_fault.trans memWriteBlock_error_iff
  | storeRegs x =>
    rw [exec, execStoreRegs_fault, memWriteBlock_error_iff, length_regBlock]
    rfl
  | loadRegs x => exact execLoadRegs_fault.trans memReadBlock_error_iff
  | ldKey x => exact iff_of_false execLdKey_ne_fault id
  | _ => exact iff_of_false nofun id

end

/-- Every instruction of the table has a meaning: `exec` answers none by a refusal. -/
theorem exec_ne_refused {i : Instr} {s : State} {r : Refusal} : exec i s ≠ .refused r := by
  cases i with
  | jp nnn | jpV0 nnn => exact setPC_not_refused
  | call nnn =>
    rw [exec, execCall]
    split
    · nofun
    · exact setPC_not_refused
  | ret =>
    rw [exec, execRet]
    split
    · nofun
    · split <;> nofun
  | drw _ _ _ | ldBcd _ | storeRegs _ | loadRegs _ =>
    simp only [exec, execDrw, execLdBcd, execStoreRegs, execLoadRegs]
    split <;> nofun
  | ldKey x =>
    rw [exec, execLdKey]
    split
    · nofun
    · split <;> nofun
  | _ => nofun

/-- Settles O7: instruction by instruction, the faults of the shared checks that it makes. -/
theorem instructionFaultsAreTheTable : Obligations.InstructionFaultsAreTheTable :=
  fun _ _ => ⟨fun _ => exec_fault_iff, fun _ => exec_ne_refused⟩

/-! ### The table for the seven operations -/

/-- A fetch faults outside memory, and at a word that no instruction decodes from (R53, R181). -/
theorem fetchInstr_error {s : State} {f : Fault} : fetchInstr s = .error f ↔
    (¬ s.pc.toNat + 1 < 4096 ∧ f = .memoryOutOfBounds s.pc.toNat) ∨
    (s.pc.toNat + 1 < 4096 ∧ (∃ e, decodeWord s.wordAtPc = .error e) ∧ f = .unknownOpcode s.wordAtPc) := by
  unfold fetchInstr
  by_cases hpc : s.pc.toNat + 1 < 4096
  · rw [fetchWord_ok hpc]
    cases hdec : decodeWord s.wordAtPc <;> simp [hpc, hdec, eq_comm (b := f)]
  · simp [fetchWord_error hpc, hpc, eq_comm (b := f)]

/-- The illegal words are reported by the decoder or, decoded to SYS, by the instruction. -/
theorem step_fault_iff {s : State} {f : Fault} : step s = .fault f ↔ StepFault s f := by
  constructor
  · rw [step_fault, fetchInstr_error]
    rintro ((⟨hpc, rfl⟩ | ⟨hpc, herr, rfl⟩) | ⟨i, hfetch, hexec⟩)
    · exact .inl ⟨by omega, rfl⟩
    · exact .inr (.inl ⟨by omega, reported_decodeWord.1 (.inl herr), rfl⟩)
    · obtain ⟨hpc, hdec⟩ := fetchInstr_ok.1 hfetch
      exact .inr (.inr ⟨by omega, i, hdec, exec_fault_iff.1 hexec⟩)
  · rintro (⟨hpc, rfl⟩ | ⟨hpc, hill, rfl⟩ | ⟨hpc, i, hdec, hfault⟩)
    · exact fetchOutOfBoundsFaults s hpc
    · exact (unknownOpcodeExactlyOnIllegalWords s _).2 ⟨hpc, rfl, hill⟩
    · exact step_fault.2 (.inr ⟨i, fetchInstr_ok.2 ⟨by omega, hdec⟩, exec_fault_iff.2 hfault⟩)

/-- `LOAD_ROM` faults on an unreadable ROM and on one of more than 3584 bytes (R65, R186). -/
theorem opLoadRom_fault_iff {r : Rom} {s : State} {f : Fault} :
    opLoadRom r s = .fault f ↔ OperationFault s f (.loadRom r) := by
  cases r with
  | unreadable => simp [opLoadRom, raise, OperationFault, eq_comm]
  | bytes bs =>
    by_cases hlen : bs.length ≤ 3584
    · simp [opLoadRom_bytes_of_le hlen, OperationFault, hlen]
    · simp [opLoadRom_bytes_of_gt (Nat.not_le.1 hlen), OperationFault, Nat.not_le.1 hlen, eq_comm]

theorem operate_fault_iff {o : Op} {s : State} {f : Fault} :
    operate o s = .fault f ↔ OperationFault s f o := by
  cases o with
  | step => exact step_fault_iff
  | loadRom r => exact opLoadRom_fault_iff
  | reset | tick | keyDown _ | keyUp _ | setQuirks _ => exact iff_of_false nofun id

theorem step_ne_refused {s : State} {r : Refusal} : step s ≠ .refused r := by
  unfold step
  split
  · nofun
  · exact exec_ne_refused

theorem opLoadRom_ne_refused {rom : Rom} {s : State} {r : Refusal} : opLoadRom rom s ≠ .refused r := by
  unfold opLoadRom
  split
  · nofun
  · split <;> nofun

theorem operate_ne_refused {o : Op} {s : State} {r : Refusal} : operate o s ≠ .refused r := by
  cases o with
  | step => exact step_ne_refused
  | loadRom rom => exact opLoadRom_ne_refused
  | reset | tick | keyDown _ | keyUp _ | setQuirks _ => nofun

/-- An operation that faults may be repeated: the state stays as it was (R187, R190). -/
theorem afterAll_replicate_of_fault {o : Op} {s : State} {f : Fault} (h : operate o s = .fault f) (n : Nat) :
    afterAll (List.replicate n o) s = s := by
  induction n with
  | zero => rfl
  | succ n ih => rwa [List.replicate_succ, afterAll, after_of_fault h]

/-- Settles O8: the step by its fetch, its decoder and its instruction, `LOAD_ROM` by its length check; a
fault leaves the state, so it repeats. -/
theorem operationsFaultExactlyByTheTable : Obligations.OperationsFaultExactlyByTheTable := by
  refine fun o s => ⟨fun f => operate_fault_iff, fun r => operate_ne_refused, fun f n hfault => ?_⟩
  have hop : operate o s = .fault f := operate_fault_iff.2 hfault
  have hstays := afterAll_replicate_of_fault hop n
  exact ⟨hstays, by rw [hstays, hop]⟩

end Sys2Proof.Machine
end

section
/-! The end of a run: a jump to itself (60_exceptions.md R206; 42_flow.md R131). -/

namespace Sys2Proof.Machine

theorem State.setPc_eq_self {s : State} {a : Word} (h : a = s.pc) : s.setPc a = s := by
  subst h; rfl

/-- A jump to its own, even, address is taken and changes nothing. -/
theorem step_of_atSelfJump {s : State} (heven : s.pc.toNat % 2 = 0) (h : s.atSelfJump) :
    step s = .next s := by
  obtain ⟨nnn, hfetch, hself⟩ := h
  obtain ⟨hpc, -⟩ := fetchInstr_ok.1 hfetch
  rw [step_of_fetchInstr hfetch, exec_jp, hself, setPC_ok hpc heven, BitVec.ofNat_toNat,
    State.setPc_eq_self (BitVec.setWidth_eq _)]

/-- An operation that completes in the state it began in may be repeated. -/
theorem runSchedule_replicate_of_next_self {o : Op} {s : State} (h : operate o s = .next s) (n : Nat) :
    runSchedule (List.replicate n o) s = .next s := by
  induction n with
  | zero => rfl
  | succ n ih => rw [List.replicate_succ, runSchedule, h]; exact ih

/-- Settles O35: PC is even by the invariant, so the jump passes both checks of its target. -/
theorem selfJumpRepeatsForever : Obligations.SelfJumpRepeatsForever :=
  fun _ n hinv hself => runSchedule_replicate_of_next_self (o := .step) (step_of_atSelfJump hinv.pcEven hself) n

end Sys2Proof.Machine
end

section
/-! The host's operations on timers, keys and quirks (60_exceptions.md R193 to R196). -/

namespace Sys2Proof.Machine

/-- A frame by field is a frame by what is read. -/
theorem KeepsAllBut.onlyChanges {parts : List Part} {s t : State} (h : KeepsAllBut parts s t) :
    OnlyChanges parts s t := fun p hp => Part.same_of_kept (h p hp)

/-! ### `TICK` -/

/-- A tick stops at 0 (R193), as subtraction of natural numbers does. -/
theorem countDown_toNat (b : Byte) : (countDown b).toNat = b.toNat - 1 := by
  unfold countDown
  split <;> bv_omega

theorem opTick_keeps (s : State) : KeepsAllBut [.dt, .st] s (opTick s) :=
  (s.setDt_keeps _).trans (State.setSt_keeps _ _)

/-- Each tick takes one from each timer and touches nothing else; by induction on the number of ticks. -/
theorem afterAll_ticks (s : State) (n : Nat) :
    let t := afterAll (List.replicate n .tick) s
    t.dt.toNat = s.dt.toNat - n ∧ t.st.toNat = s.st.toNat - n ∧ t.pc = s.pc ∧ KeepsAllBut [.dt, .st] s t := by
  induction n generalizing s with
  | zero => exact ⟨rfl, rfl, rfl, .refl _ s⟩
  | succ n ih =>
    obtain ⟨hdt, hst, hpc, hkeep⟩ := ih (opTick s)
    have hdt1 : (opTick s).dt.toNat = s.dt.toNat - 1 := countDown_toNat s.dt
    have hst1 : (opTick s).st.toNat = s.st.toNat - 1 := countDown_toNat s.st
    exact ⟨hdt.trans (by omega), hst.trans (by omega), hpc,
      fun p hp => Part.kept_trans (opTick_keeps s p hp) (hkeep p hp)⟩

/-- Settles O48: what the ticks keep field by field reads the same. -/
theorem ticksCountBothTimersDown : Obligations.TicksCountBothTimersDown := by
  intro s n
  obtain ⟨hdt, hst, hpc, hkeep⟩ := afterAll_ticks s n
  exact ⟨hdt, hst, hpc, hkeep.onlyChanges⟩

/-! ### `KEY_DOWN`, `KEY_UP` and `SET_QUIRKS` -/

theorem State.setKey_getKey_self (s : State) (k : Nibble) (b : Bool) : (s.setKey k b).getKey k = b := by
  rw [State.setKey_getKey, if_pos rfl]

theorem State.setKey_getKey_of_ne (s : State) {k r : Nibble} (b : Bool) (h : r ≠ k) :
    (s.setKey k b).getKey r = s.getKey r := by
  rw [State.setKey_getKey, if_neg h]

/-- Settles O49: the flag is written, and while waiting the wait state too. -/
theorem keyDownEndsAWait : Obligations.KeyDownEndsAWait := by
  intro k s
  have hself := s.setKey_getKey_self k true
  have hothers (j : Nibble) (hj : j ≠ k) := s.setKey_getKey_of_ne true hj
  refine ⟨opKeyDown k s, rfl, ?_⟩
  cases ha : s.await with
  | true =>
    rw [opKeyDown_of_await ha]
    exact ⟨hself, hothers, fun _ => ⟨rfl, rfl⟩, nofun, rfl,
      ((s.setKey_keeps k true).trans (State.setWait_keeps _ _ _)).onlyChanges⟩
  | false =>
    rw [opKeyDown_of_not_await ha]
    exact ⟨hself, hothers, nofun, fun _ => ⟨ha, rfl⟩, rfl,
      ((s.setKey_keeps k true).mono (by simp)).onlyChanges⟩

/-- Settles O50: a write of one key flag. -/
theorem keyUpClearsOneFlag : Obligations.KeyUpClearsOneFlag := fun k s =>
  ⟨_, rfl, s.setKey_getKey_self k false, fun _ => s.setKey_getKey_of_ne false, rfl,
    (s.setKey_keeps k false).onlyChanges⟩

theorem opSetQuirks_keeps (q : Quirks) (s : State) : KeepsAllBut [.quirks] s (opSetQuirks q s) := by
  intro p hp; cases p <;> simp [Part.kept, opSetQuirks] at hp ⊢

/-- Settles O51: a write of the quirks. -/
theorem setQuirksWritesOnlyQuirks : Obligations.SetQuirksWritesOnlyQuirks := fun q s =>
  ⟨_, rfl, rfl, rfl, (opSetQuirks_keeps q s).onlyChanges⟩

end Sys2Proof.Machine
end

section
/-! `RESET` and the boot sequence (70_reset_and_hazards.md R210, R212, R214; 10_state.md R37). -/

namespace Sys2Proof.Machine

/-! ### The table of reset values -/

/-- Past the 80 bytes of the font memory resets to zero (R51). -/
theorem resetByte_of_ge {a : Nat} (h : 0x50 ≤ a) : resetByte a = 0#8 := by
  rw [resetByte, fontBase, if_pos (Nat.zero_le a)]
  exact List.getD_eq_default _ _ h

theorem opReset_getV (s : State) (r : Nibble) : (opReset s).getV r = 0#8 :=
  Vector.getElem_replicate _

theorem opReset_getKey (s : State) (k : Nibble) : (opReset s).getKey k = false :=
  Vector.getElem_replicate _

theorem opReset_stack (s : State) (j : Fin 16) : (opReset s).stack[j] = 0#16 :=
  Vector.getElem_replicate _

theorem opReset_pixel (s : State) (x y : Nat) : (opReset s).disp.pixel x y = false :=
  Display.pixel_blank x y

/-- After `RESET` memory lists no byte, so the font is read at 0x000 and zero past it (R66, R210). -/
theorem opReset_read_of_ge (s : State) (a : Nat) (h : 0x50 ≤ a) : (opReset s).mem.read a = 0#8 :=
  resetByte_of_ge h

theorem opReset_readBytes_font (s : State) : (opReset s).mem.readBytes 0x000 80 = font := rfl

/-- Settles O56: the registers, keys, stack slots, cells and bytes one by one, each other field by the
table. -/
theorem resetGivesTheTable : Obligations.ResetGivesTheTable := fun s =>
  ⟨opReset s, rfl, opReset_getV s, rfl, rfl, rfl, opReset_stack s, opReset_pixel s, rfl, rfl,
    opReset_getKey s, rfl, rfl, rfl, opReset_read_of_ge s, opReset_readBytes_font s, rfl, rfl, rfl⟩

/-! ### The boot sequence -/

/-- Without a ROM the word at the entry address is zero (R214). -/
theorem opReset_wordAtPc (s : State) : (opReset s).wordAtPc = 0x0000#16 := by
  have hhigh : (opReset s).mem.read 0x200 = 0#8 := opReset_read_of_ge s _ (by decide)
  have hlow : (opReset s).mem.read 0x201 = 0#8 := opReset_read_of_ge s _ (by decide)
  exact congrArg₂ (· ++ ·) hhigh hlow

/-- The zero word is of family 0, and neither CLS nor RET (R82). -/
theorem illegalWord_zero : IllegalWord 0x0000#16 := .inl ⟨rfl, by decide, by decide⟩

theorem step_opReset (s : State) : step (opReset s) = .fault (.unknownOpcode 0x0000#16) := by
  have hpc : (opReset s).pc = 0x200#16 := rfl
  exact (unknownOpcodeExactlyOnIllegalWords _ _).2
    ⟨by rw [hpc]; decide, (opReset_wordAtPc s).symm, illegalWord_zero⟩

/-- With a ROM of at least two bytes the fetch at the entry address reads its first two, the first of them
high (R57, R65). -/
theorem fetchWord_withRom {s : State} {hi lo : Byte} {rest : List Byte} (hpc : s.pc = 0x200#16)
    (hm : s.mem.wf = true) (hlen : (hi :: lo :: rest).length ≤ 3584) :
    fetchWord (s.withRom (hi :: lo :: rest)) = .ok (hi ++ lo) := by
  have hpc' : (s.withRom (hi :: lo :: rest)).pc = 0x200#16 := hpc
  have hhigh := State.withRom_read hm hlen 0 (by simp)
  have hlow := State.withRom_read hm hlen 1 (by simp)
  rw [fetchWord_ok (by rw [hpc']; decide), State.wordAtPc, hpc']
  exact congrArg Except.ok (congrArg₂ (· ++ ·) hhigh hlow)

/-- Settles O57: `LOAD_ROM` keeps PC at the entry address and the registers zero, and puts the ROM's first
word there; without it the word there is illegal. -/
theorem bootFetchesTheRom : Obligations.BootFetchesTheRom := by
  intro s hi lo rest hrest
  have hlen : (hi :: lo :: rest).length ≤ 3584 := Nat.add_le_add_right hrest 2
  refine ⟨⟨(opReset s).withRom (hi :: lo :: rest), ?_, ?_, rfl, rfl, opReset_getV s⟩, ?_⟩
  · simp only [runSchedule, operate, opLoadRom_bytes_of_le hlen]
  · exact fetchWord_withRom rfl (opReset_inv s).mem hlen
  · simp only [runSchedule, operate, step_opReset]

end Sys2Proof.Machine
end
